-- ==== Sys2Proof/Word.lean ====
section
/-! DEFINITION. The bit-pattern types of the machine: the byte of SRC and OUT, the 16-bit word of an
offset or a palette entry (spec 00_scope R8, 10_state R34), and the RGB triple of a pixel (46 R200).
Positions, lengths and counts are natural numbers, since no rule ever wraps one (00_scope R7). -/

namespace Sys2Proof

/-- A byte: 8 bits, unsigned (R8). -/
abbrev Byte := BitVec 8

/-- A 16-bit quantity: an absolute offset (R97) or a palette word (R107). -/
abbrev Half := BitVec 16

/-- An ordered colour triple, red first, each channel a byte (46_palette_mapper R200). -/
structure Rgb where
  r : Byte
  g : Byte
  b : Byte
deriving DecidableEq, Repr

end Sys2Proof
end

