-- ==== Sys2Proof/Config.lean ====
section
/-! DEFINITION. What an implementation fixes: the named parameters of 00_scope R7 (SRC_SIZE, POS_W,
OUT_CAP, XSEL) and their defaults, and the values the spec leaves free (93 U10, U19,
and the SRC_BASE kept of a write that POS_W bits do not hold).
The parameters are arguments of the step relation and not state (10_state R20); a machine carries its
own in the field `cfg`, which no step changes (assumption log, entry 1). -/

namespace Sys2Proof

/-- XSEL: which value of the 3-bit selector of an extended control byte means which operation
(00_scope R7, 92 D6). -/
structure XSel where
  literal : BitVec 3
  fill    : BitVec 3
  pair    : BitVec 3
  rel     : BitVec 3
deriving DecidableEq, Repr

/-- The spec's default of XSEL: literal 0, fill 1, pair 2, relative copy 6 (R7). -/
def XSel.standard : XSel := { literal := 0, fill := 1, pair := 2, rel := 6 }

/-- The parameters of one machine (R7). -/
structure Config where
  /-- SRC_SIZE, the number of bytes in the source medium (D3). -/
  srcSize : Nat
  /-- POS_W, the width of the position registers; none is unbounded (D4). -/
  posW    : Option Nat
  /-- OUT_CAP, the capacity of OUT in bytes; none is unbounded (D5). -/
  outCap  : Option Nat
  /-- XSEL, the selector assignment of the extended family (D6). -/
  xsel    : XSel
deriving DecidableEq, Repr

/-- R7's defaults. SRC_SIZE has none ("any natural number, chosen by the host at launch"): the empty
medium is a DESIGN CHOICE (assumption log, entry 2). -/
def Config.standard : Config :=
  { srcSize := 0, posW := none, outCap := none, xsel := XSel.standard }

/-- FREE VALUE. The byte an address of SRC holds before the host has written it (10_state R45,
93 U19: any value). Nothing is known of it (assumption log, entry 3). -/
opaque Config.srcPowerOn : Nat → Byte

/-- FREE VALUE. The word a host read finds in a PAL_RAM entry at or past PAL_COUNT (10_state R38,
93 U10: any value). Nothing is known of it (assumption log, entry 6). -/
opaque Config.palUnset : Nat → Half

/-- FREE VALUE. What SRC_BASE keeps of a write of a value that a finite POS_W does not hold, by the count of
such writes, before it is cut to POS_W bits (10_state R23, R33 state no result). Nothing is known of it
(assumption log, entry 18). -/
opaque Config.srcBaseWide : Nat → Nat

end Sys2Proof
end

