-- ==== Sys2Proof/Syntax.lean ====
section
/-! DEFINITION. The instructions: one opcode of the compressed stream each (30_encoding R99, R104).
`n` is the run length in bytes, not the encoded field; the literal forms carry their bytes, whose
number is the run length. The five XRSV rows of the opcode table are one form (R99, R176), so one
constructor, which carries the control byte (assumption log, entry 16). -/

namespace Sys2Proof

/-- An opcode with its operands. -/
inductive Instr where
  /-- LIT, literal run (R135). -/
  | lit (d : List Byte)
  /-- FILL, byte fill (R136). -/
  | fill (n : Nat) (v : Byte)
  /-- PAIR, pair fill (R137). -/
  | pair (n : Nat) (p0 p1 : Byte)
  /-- RAMP, linear ramp (R138). -/
  | ramp (n : Nat) (v : Byte)
  /-- ACPY, absolute copy (R150). -/
  | acpy (n : Nat) (o : Half)
  /-- AINV, absolute inverted copy (R151). -/
  | ainv (n : Nat) (o : Half)
  /-- RCPY, relative overlapping copy (R160). -/
  | rcpy (n : Nat) (b : Byte)
  /-- XLIT, extended literal run (R172). -/
  | xlit (d : List Byte)
  /-- XFILL, extended byte fill (R173). -/
  | xfill (n : Nat) (v : Byte)
  /-- XPAIR, extended pair fill (R174). -/
  | xpair (n : Nat) (p0 p1 : Byte)
  /-- XRCPY, extended relative overlapping copy (R175). -/
  | xrcpy (n : Nat) (b : Byte)
  /-- XRSV, reserved extended sub-opcode, with its control byte (R176). -/
  | xrsv (ctl : Byte)
  /-- END, the terminal sentinel (R122). -/
  | endStream
deriving DecidableEq, Repr

end Sys2Proof
end

