-- ==== Sys2Proof/WellFormed.lean ====
section
/-! DEFINITION. Which instructions and which parameters the spec admits: the constraint column of
30_encoding R104, the range of the counts (R94, R95), the reserved control bytes (R100), the encoding
the sentinel shadows (70 R265), and the conditions on XSEL (R99) and POS_W (92 D4). -/

namespace Sys2Proof

/-- The four operations have four distinct selector values (30_encoding R99). -/
def XSel.wf (x : XSel) : Bool :=
  x.literal != x.fill && x.literal != x.pair && x.literal != x.rel &&
  x.fill != x.pair && x.fill != x.rel && x.pair != x.rel

/-- The selector values XSEL assigns to an operation. -/
def XSel.assigned (x : XSel) (sss : BitVec 3) : Bool :=
  sss == x.literal || sss == x.fill || sss == x.pair || sss == x.rel

/-- A finite POS_W has SRC_SIZE and OUT_CAP below 2^POS_W, so that no position wraps (92 D4). -/
def Config.posFits (c : Config) : Bool :=
  match c.posW with
  | none => true
  | some w => decide (c.srcSize < 2 ^ w) &&
      (match c.outCap with
       | none => false
       | some cap => decide (cap < 2 ^ w))

/-- The parameters a machine may have. -/
def Config.wf (c : Config) : Bool := c.xsel.wf && c.posFits

/-- The run lengths of families 0 to 6: 1 to 32 (R94). -/
def shortLength (n : Nat) : Bool := decide (1 ≤ n) && decide (n ≤ 32)

/-- The run lengths of an extended operation at selector `sss`: 1 to 1024 (R95), but for the counts
769 to 1024 at selector 7, whose control byte is the sentinel (70 R265). -/
def extLength (sss : BitVec 3) (n : Nat) : Bool :=
  decide (1 ≤ n) && decide (n ≤ 1024) && !(sss == 7 && decide (768 < n))

/-- A reserved extended control byte: family 7, a selector XSEL does not assign, and not the
sentinel (R100, R176). -/
def reservedControl (x : XSel) (ctl : Byte) : Bool :=
  ctl.extractLsb' 5 3 == 7 && ctl != 0xFF && !x.assigned (ctl.extractLsb' 2 3)

/-- The instructions the encoding admits under the selector assignment `x` (R104). -/
def Instr.wf (x : XSel) : Instr → Bool
  | .lit d => shortLength d.length
  | .fill n _ => shortLength n
  | .pair n _ _ => shortLength n
  | .ramp n _ => shortLength n
  | .acpy n _ => shortLength n
  | .ainv n _ => shortLength n
  | .rcpy n _ => shortLength n
  | .xlit d => extLength x.literal d.length
  | .xfill n _ => extLength x.fill n
  | .xpair n _ _ => extLength x.pair n
  | .xrcpy n _ => extLength x.rel n
  | .xrsv ctl => reservedControl x ctl
  | .endStream => true

end Sys2Proof
end

