-- ==== Sys2Proof/Decode.lean ====
section
/-! DEFINITION. The decoder of the compressed stream, total on any bytes, and the encoder, both from
30_encoding. The decoder reads one opcode from the front of the remaining stream: the sentinel test
first (R93), then the family (R91, R123), then the selector of family 7 (R92, R170), then the operand
bytes in stream order (R96). What it refuses, it refuses by name. -/

namespace Sys2Proof

/-- The thirteen forms of the opcode map (R99). -/
inductive Form where
  | lit | fill | pair | ramp | acpy | ainv | rcpy | xlit | xfill | xpair | xrcpy | xrsv | endStream
deriving DecidableEq, Repr

/-- Why no opcode can be read from the stream: both are SourceExhausted (60 R221). -/
inductive DecodeError where
  /-- The control byte itself is missing (40 R121). -/
  | noControlByte
  /-- The control byte was read and an operand byte is missing (R221). -/
  | missingOperands (ctl : Byte)
deriving DecidableEq, Repr

/-! ### Fields of the control byte -/

/-- `fff`, bits 7:5 (R91). -/
def family (ctl : Byte) : BitVec 3 := ctl.extractLsb' 5 3

/-- `sss`, bits 4:2 (R92). -/
def selector (ctl : Byte) : BitVec 3 := ctl.extractLsb' 2 3

/-- `n = c + 1` with `c = ctl[4:0]` (R94). -/
def shortCount (ctl : Byte) : Nat := (ctl.extractLsb' 0 5).toNat + 1

/-- `n = (aa << 8) + k + 1` with `aa = ctl[1:0]` (R95). -/
def extCount (ctl k : Byte) : Nat := 256 * (ctl.extractLsb' 0 2).toNat + k.toNat + 1

/-- `o = lo + 256 * hi` (R97). -/
def offsetLE (lo hi : Byte) : Half := BitVec.ofNat 16 (lo.toNat + 256 * hi.toNat)

/-! ### Dispatch -/

/-- Extended dispatch (R170): the selector decides, in this order. -/
def extForm (x : XSel) (ctl : Byte) : Form :=
  if selector ctl = x.literal then .xlit
  else if selector ctl = x.fill then .xfill
  else if selector ctl = x.pair then .xpair
  else if selector ctl = x.rel then .xrcpy
  else .xrsv

/-- The form a control byte selects (R99): the sentinel first (R93), then the family (R120). -/
def formOf (x : XSel) (ctl : Byte) : Form :=
  if ctl = 0xFF#8 then .endStream
  else match (family ctl).toNat with
    | 0 => .lit
    | 1 => .fill
    | 2 => .pair
    | 3 => .ramp
    | 4 => .acpy
    | 5 => .ainv
    | 6 => .rcpy
    | _ => extForm x ctl

/-- The first `n` bytes, where the stream has that many. -/
def takeBytes (n : Nat) (bs : List Byte) : Option (List Byte) :=
  if (bs.take n).length = n then some (bs.take n) else none

/-- The operands of a form, from the bytes after the control byte, in stream order (R96). -/
def readOperands (ctl : Byte) (bs : List Byte) : Form → Option Instr
  | .lit => (takeBytes (shortCount ctl) bs).map .lit
  | .fill => match bs with
    | v :: _ => some (.fill (shortCount ctl) v)
    | [] => none
  | .pair => match bs with
    | p0 :: p1 :: _ => some (.pair (shortCount ctl) p0 p1)
    | _ => none
  | .ramp => match bs with
    | v :: _ => some (.ramp (shortCount ctl) v)
    | [] => none
  | .acpy => match bs with
    | lo :: hi :: _ => some (.acpy (shortCount ctl) (offsetLE lo hi))
    | _ => none
  | .ainv => match bs with
    | lo :: hi :: _ => some (.ainv (shortCount ctl) (offsetLE lo hi))
    | _ => none
  | .rcpy => match bs with
    | b :: _ => some (.rcpy (shortCount ctl) b)
    | [] => none
  | .xlit => match bs with
    | k :: ds => (takeBytes (extCount ctl k) ds).map .xlit
    | [] => none
  | .xfill => match bs with
    | k :: v :: _ => some (.xfill (extCount ctl k) v)
    | _ => none
  | .xpair => match bs with
    | k :: p0 :: p1 :: _ => some (.xpair (extCount ctl k) p0 p1)
    | _ => none
  | .xrcpy => match bs with
    | k :: b :: _ => some (.xrcpy (extCount ctl k) b)
    | _ => none
  | .xrsv => some (.xrsv ctl)
  | .endStream => some .endStream

/-- One opcode from the front of the remaining stream (R102). -/
def decode (x : XSel) : List Byte → Except DecodeError Instr
  | [] => .error .noControlByte
  | ctl :: bs =>
    match readOperands ctl bs (formOf x ctl) with
    | some i => .ok i
    | none => .error (.missingOperands ctl)

/-! ### Encoding -/

/-- The control byte of a short form: family, then count minus one (R91, R94). -/
def shortControl (f n : Nat) : Byte := BitVec.ofNat 8 (32 * f + (n - 1))

/-- The control byte of an extended form: `111 sss aa` (R92, R95, R104). -/
def extControl (sss : BitVec 3) (n : Nat) : Byte :=
  BitVec.ofNat 8 (0xE0 + 4 * sss.toNat + (n - 1) / 256)

/-- The count byte `k` of an extended form: (n - 1) mod 256 (R104). -/
def countByte (n : Nat) : Byte := BitVec.ofNat 8 ((n - 1) % 256)

/-- The low byte of an offset, o mod 256 (R104). -/
def offsetLo (o : Half) : Byte := BitVec.ofNat 8 (o.toNat % 256)

/-- The high byte of an offset, o div 256 (R104). -/
def offsetHi (o : Half) : Byte := BitVec.ofNat 8 (o.toNat / 256)

/-- The control byte of an instruction under the selector assignment `x` (R104). -/
def controlByte (x : XSel) : Instr → Byte
  | .lit d => shortControl 0 d.length
  | .fill n _ => shortControl 1 n
  | .pair n _ _ => shortControl 2 n
  | .ramp n _ => shortControl 3 n
  | .acpy n _ => shortControl 4 n
  | .ainv n _ => shortControl 5 n
  | .rcpy n _ => shortControl 6 n
  | .xlit d => extControl x.literal d.length
  | .xfill n _ => extControl x.fill n
  | .xpair n _ _ => extControl x.pair n
  | .xrcpy n _ => extControl x.rel n
  | .xrsv ctl => ctl
  | .endStream => 0xFF

/-- The operand bytes of an instruction, in stream order (R96). -/
def operandBytes : Instr → List Byte
  | .lit d => d
  | .fill _ v => [v]
  | .pair _ p0 p1 => [p0, p1]
  | .ramp _ v => [v]
  | .acpy _ o => [offsetLo o, offsetHi o]
  | .ainv _ o => [offsetLo o, offsetHi o]
  | .rcpy _ b => [b]
  | .xlit d => countByte d.length :: d
  | .xfill n v => [countByte n, v]
  | .xpair n p0 p1 => [countByte n, p0, p1]
  | .xrcpy n b => [countByte n, b]
  | .xrsv _ => []
  | .endStream => []

/-- The bytes of an instruction in the stream (R104). -/
def encode (x : XSel) (i : Instr) : List Byte := controlByte x i :: operandBytes i

/-- The total length of an instruction in bytes, the last column of R96. -/
def Instr.length : Instr → Nat
  | .lit d => 1 + d.length
  | .fill _ _ => 2
  | .pair _ _ _ => 3
  | .ramp _ _ => 2
  | .acpy _ _ => 3
  | .ainv _ _ => 3
  | .rcpy _ _ => 2
  | .xlit d => 2 + d.length
  | .xfill _ _ => 3
  | .xpair _ _ _ => 4
  | .xrcpy _ _ => 3
  | .xrsv _ => 1
  | .endStream => 1

/-- The longest instruction of the format: XLIT with n = 1024 (R90). -/
def maxLength : Nat := 1026

/-! ### Words of the opcode table -/

/-- `n` bytes of the number `w`, its least significant byte first. -/
def bytesOfNat : Nat → Nat → List Byte
  | 0, _ => []
  | n + 1, w => BitVec.ofNat 8 w :: bytesOfNat n (w / 256)

/-- The stream bytes of a table word: bit 0 of `w` is bit 0 of the control byte, every bit at or
above `nbits` is 0, up to the longest instruction. -/
def tableBytes (nbits w : Nat) : List Byte := bytesOfNat maxLength (w % 2 ^ nbits)

/-- What the decoder reads from a word of the opcode table, under the default XSEL. -/
def decodeTableWord (nbits w : Nat) : Option Instr :=
  match decode XSel.standard (tableBytes nbits w) with
  | .ok i => some i
  | .error _ => none

end Sys2Proof
end

