-- ==== Sys2Proof/Machine/State.lean ====
section
/-! DEFINITION. The state of the machine as plain data (10_state R20), the reasons a step can stop,
and the state right after reset (R45). OUT_LEN and PAL_COUNT are the lengths of `out` and `palRam`
and are stored there only (R11, R38, R39; accessors in Machine/Ops.lean). -/

namespace Sys2Proof.Machine

/-- PHASE (R30): which agent is enabled and whether the run ended. The values 6 and 7 are never held
and have no constructor. -/
inductive Phase where
  | idle | decode | decoded | render | rendered | fault
deriving DecidableEq, Repr

/-- The contents of ERR (R31, 60 R220). -/
inductive ErrCode where
  | none
  | sourceExhausted
  | malformedOpcode
  | outOfRangeReference
  | configurationError
  | outputOverflow
  | rasterRange
  /-- Code 7, reserved: no rule raises it (60 R227). -/
  | formatViolation
deriving DecidableEq, Repr

/-- A move of the HOST that can change the machine (R32, R33, R40, R46, 70 R250). Its reads change
nothing and are functions of the state (Machine/HostPort.lean). -/
inductive HostMove where
  /-- A write of `v` to CMD (R32). -/
  | cmd (v : Nat)
  /-- A write of `v` to SRC_BASE (R23). -/
  | setSrcBase (v : Nat)
  /-- A write of `v` to PAL_SEL, of which bit 0 is used (R33, R37). -/
  | setPalSel (v : Nat)
  /-- A write of a palette word to PAL_PUSH (R40). -/
  | palPush (w : Half)
  /-- A write of one byte of the SRC memory (R46). -/
  | writeSrc (a : Nat) (v : Byte)
  /-- The hardware reset input (70 R250). -/
  | hardReset
deriving DecidableEq, Repr

/-- The SRC memory: the bytes the host has put there, by absolute address, in one canonical form
(addresses strictly rising, Machine/Memory.lean). An unlisted address holds no value the model
knows (assumption log, entries 3 and 4). -/
abbrev Memory := List Host.Cell

/-- RASTER: the pixels REN has written, by key 128·y + x, in the same canonical form. An unlisted
pixel is unwritten and holds no value (R43, R44). -/
abbrev RasterMem := List (Nat × Rgb)

/-- The architectural state (R20), the machine's parameters (R7, entry 1) the turns still to come
(entry 8) and the count of free values taken (entry 18). -/
structure State where
  /-- The parameters SRC_SIZE, POS_W, OUT_CAP, XSEL: constant. -/
  cfg      : Config
  /-- SRC (R22). -/
  src      : Memory
  /-- SRC_BASE (R23). -/
  srcBase  : Nat
  /-- SRC_POS, the program counter (R24). -/
  srcPos   : Nat
  /-- OP_POS (R25). -/
  opPos    : Nat
  /-- CTL (R26). -/
  ctl      : Byte
  /-- OUT, whose length is OUT_LEN (R27). -/
  out      : List Byte
  /-- COMP_SIZE (R28). -/
  compSize : Nat
  /-- PHASE (R30). -/
  phase    : Phase
  /-- ERR (R31). -/
  err      : ErrCode
  /-- PAL_SEL (R37): true is RAM, false is ROM. -/
  palSel   : Bool
  /-- PAL_RAM: the words pushed since reset, in order; their number is PAL_COUNT (R38, R39). -/
  palRam   : List Half
  /-- TILE_IDX (R41). -/
  tileIdx  : Nat
  /-- T_TILES (R42). -/
  tTiles   : Nat
  /-- RASTER_H (R42). -/
  rasterH  : Nat
  /-- RASTER (R43). -/
  raster   : RasterMem
  /-- The model's own field: the turns to come, each a host move or (none) a turn of the enabled agent.
  When it is empty every turn is the enabled agent's (assumption log, entry 8). -/
  inbox    : List (Option HostMove)
  /-- The model's own field: how many free values the host's writes to SRC_BASE have taken so far (assumption
  log, entry 18). -/
  freeCount : Nat
deriving DecidableEq, Repr

/-- The reasons a step stops with a fault. The spec's own faults are no such stop: they are the phase
FAULT (60 R228). Both reasons here arise only in states no run reaches, where the spec gives REN no
behaviour ("A REN step cannot fault", 47 R212; assumption log, entry 13). -/
inductive Fault where
  /-- Raised by a REN step whose tile record is not wholly in OUT (45 R187). Safe: the machine stops. -/
  | tileRecordMissing
  /-- Raised by a REN step whose pixels lie at or below row RASTER_H (47 R214). Safe: the machine stops. -/
  | pixelOutsideRaster
deriving DecidableEq, Repr

/-- The reasons a step is refused: no behaviour is modelled because the spec gives none. -/
inductive Refusal where
  /-- Raised by exec for an instruction without a meaning. Safe: the machine stops. -/
  | notModelled (mnemonic : String)
  /-- Raised by a host write of SRC outside phase IDLE: no move the host has (20 R76, 93 U17). Safe. -/
  | srcWriteOutsideIdle
  /-- Raised by a host write of SRC at an address at or past SRC_SIZE: no such byte (10 R22). Safe. -/
  | srcAddressAbsent
deriving DecidableEq, Repr

/-- The result of a step or a meaning. -/
abbrev Result := Host.Outcome State Fault Refusal

/-- The machine right after reset (R45), with the default parameters, no byte of SRC listed and no
host move pending. -/
def State.reset : State :=
  { cfg := Config.standard
    src := []
    srcBase := 0
    srcPos := 0
    opPos := 0
    ctl := 0x00
    out := []
    compSize := 0
    phase := .idle
    err := .none
    palSel := false
    palRam := []
    tileIdx := 0
    tTiles := 0
    rasterH := 0
    raster := []
    inbox := []
    freeCount := 0 }

end Sys2Proof.Machine
end

