-- ==== Sys2Proof/Machine/Flags.lean ====
section
/-! DEFINITION. The status the hardware keeps. There are no flags and no condition codes: no opcode
sets or tests one (10_state R29). The only status is PHASE and ERR, control registers; here are their
codes (R30, R31) and the sets of phases the rules name. -/

namespace Sys2Proof.Machine

/-- The value of PHASE (R30). -/
def Phase.code : Phase → Nat
  | .idle => 0
  | .decode => 1
  | .decoded => 2
  | .render => 3
  | .rendered => 4
  | .fault => 5

/-- The value of ERR (R31). -/
def ErrCode.code : ErrCode → Nat
  | .none => 0
  | .sourceExhausted => 1
  | .malformedOpcode => 2
  | .outOfRangeReference => 3
  | .configurationError => 4
  | .outputOverflow => 5
  | .rasterRange => 6
  | .formatViolation => 7

/-- The phases in which a write of RESET to CMD is accepted (R32): neither DEC nor REN is enabled. -/
def Phase.hostOwned : Phase → Bool
  | .idle => true
  | .decode => false
  | .decoded => true
  | .render => false
  | .rendered => true
  | .fault => true

/-- The final states of a run (70 R253). -/
def Phase.final : Phase → Bool
  | .idle => false
  | .decode => false
  | .decoded => true
  | .render => false
  | .rendered => true
  | .fault => false

end Sys2Proof.Machine
end

