-- ==== Sys2Proof/Machine/Memory.lean ====
section
/-! DEFINITION. The sparse memories SRC and RASTER: a list of cells (address and value) whose addresses
strictly rise, an address that is not listed holding no value. One set of operations serves both.
20_memory R64: one byte, or one pixel, per access. -/

namespace Sys2Proof.Machine

/-- The value at address `a`, if one is listed. -/
def Cells.read {α : Type} : List (Nat × α) → Nat → Option α
  | [], _ => none
  | (b, w) :: m, a => if a = b then some w else Cells.read m a

/-- Put `v` at address `a`, in its place. -/
def Cells.write {α : Type} : List (Nat × α) → Nat → α → List (Nat × α)
  | [], a, v => [(a, v)]
  | (b, w) :: m, a, v =>
    if a < b then (a, v) :: (b, w) :: m
    else if a = b then (a, v) :: m
    else (b, w) :: Cells.write m a v

/-- Put every listed value at its address, in order. -/
def Cells.writeAll {α : Type} : List (Nat × α) → List (Nat × α) → List (Nat × α)
  | m, [] => m
  | m, (a, v) :: l => Cells.writeAll (Cells.write m a v) l

/-- Every address listed is at least `lo` and the addresses strictly rise. -/
def Cells.risingFrom {α : Type} : Nat → List (Nat × α) → Bool
  | _, [] => true
  | lo, (a, _) :: m => decide (lo ≤ a) && Cells.risingFrom (a + 1) m

/-- The canonical form: addresses strictly rising. -/
def Cells.wf {α : Type} (m : List (Nat × α)) : Bool := Cells.risingFrom 0 m

/-- Every address listed is below `n`. -/
def Cells.below {α : Type} (n : Nat) (m : List (Nat × α)) : Bool :=
  m.all fun c => decide (c.1 < n)

/-- SRC is in canonical form. -/
def Memory.wf (m : Memory) : Bool := Cells.wf m

/-- Put the bytes `bs` at addresses `a`, `a + 1`, … (the load of a program from outside). -/
def Memory.load (m : Memory) : Nat → List Byte → Memory
  | _, [] => m
  | a, v :: bs => Cells.write (Memory.load m (a + 1) bs) a v

end Sys2Proof.Machine
end

