-- ==== Sys2Proof/Machine/Ops.lean ====
section
/-! DEFINITION. The named operations over the memories and registers: reading SRC and the remaining
stream (00_scope R10), reading and extending OUT (R11, 41 R134), the latches of a fetched opcode
(40 R120, R124), THE FAULT ENTRY, the machine's one way of taking an exception (60 R228), and RESET,
the only way out of it (60 R231, 70 R250). -/

namespace Sys2Proof.Machine

/-! ### Registers that are views -/

/-- OUT_LEN = len(OUT) (R11, R27). -/
def State.outLen (s : State) : Nat := s.out.length

/-- PAL_COUNT, the number of palette words pushed since reset (R39). -/
def State.palCount (s : State) : Nat := s.palRam.length

/-! ### SRC -/

/-- The address of the next stream byte, SRC_BASE + SRC_POS (R24, R66). -/
def State.srcAddr (s : State) : Nat := s.srcBase + s.srcPos

/-- The byte of SRC at an address below SRC_SIZE: what the host put there, or the free power-on byte
(R22, R45, 93 U19). -/
def State.srcByte (s : State) (a : Nat) : Byte := (Cells.read s.src a).getD (Config.srcPowerOn a)

/-- `n` consecutive bytes of SRC from address `a`. -/
def State.srcBytes (s : State) (a n : Nat) : List Byte := (List.range' a n).map s.srcByte

/-- How many bytes the stream still has: an address at or past SRC_SIZE is none (R10, R121). -/
def State.remaining (s : State) : Nat := s.cfg.srcSize - s.srcAddr

/-- The remaining stream, as far as one opcode can reach: at most 1026 bytes (R90). -/
def State.stream (s : State) : List Byte := s.srcBytes s.srcAddr (min maxLength s.remaining)

/-! ### OUT -/

/-- OutRead(i), where the byte exists (R11). -/
def State.outRead (s : State) (i : Nat) : Option Byte := s.out[i]?

/-- OUT_LEN = `n` does not exceed OUT_CAP (60 R224). -/
def capAllows (c : Config) (n : Nat) : Bool :=
  match c.outCap with
  | none => true
  | some cap => decide (n ≤ cap)

/-! ### Taking an exception, and leaving it -/

/-- FaultEntry(E) (60 R228): OUT back to its value at the start of the step, ERR and PHASE written,
everything else as it was at the raise. `start` is the state at the start of the step, `s` the state
at the raise. -/
def faultEntry (start : State) (e : ErrCode) (s : State) : State :=
  { s with out := start.out, err := e, phase := .fault }

/-- RESET (70 R250): every piece of state to its reset value (10_state R45); SRC is not touched, the
parameters are constant, what the host has yet to do is the host's (entry 8), and the free values taken stay taken
(entry 18). -/
def State.resetMachine (s : State) : State :=
  { State.reset with cfg := s.cfg, src := s.src, inbox := s.inbox, freeCount := s.freeCount }

/-! ### The step of an opcode -/

/-- The latches of an opcode whose bytes have all been read: OP_POS is where it began, CTL its control
byte, and SRC_POS is past its last byte (R120, R124). -/
def State.consume (s : State) (i : Instr) : State :=
  { s with
    opPos := s.srcPos
    ctl := controlByte s.cfg.xsel i
    srcPos := s.srcPos + i.length }

/-- The fault entry of an opcode that could not be read whole (R121, R221). With no control byte CTL
and SRC_POS stay; otherwise CTL is the control byte and every byte that is there has been read. -/
def fetchFault (s : State) : DecodeError → State
  | .noControlByte => faultEntry s .sourceExhausted { s with opPos := s.srcPos }
  | .missingOperands ctl =>
    faultEntry s .sourceExhausted
      { s with opPos := s.srcPos, ctl := ctl, srcPos := s.srcPos + s.remaining }

/-- Commit(new) (41 R134): all of `new` is appended, or OutputOverflow is raised and none is. -/
def commit (start s : State) (new : List Byte) : State :=
  if capAllows s.cfg (s.out.length + new.length) then { s with out := s.out ++ new }
  else faultEntry start .outputOverflow s

end Sys2Proof.Machine
end

