-- ==== Sys2Proof/Machine/Control.lean ====
section
/-! DEFINITION. END, the one opcode whose effect is on the machine (40_dispatch_and_end R122, R127). -/

namespace Sys2Proof.Machine

/-- END (R122): COMP_SIZE is the position of the sentinel, and the decode is over. -/
def execEndStream (s : State) : Result :=
  .next { s.consume .endStream with compSize := s.srcPos, phase := .decoded }

end Sys2Proof.Machine
end

