-- ==== Sys2Proof/Machine/Operands.lean ====
section
/-! DEFINITION. The operand forms of the byte-producing opcodes: the generated runs (immediate operands,
20_memory R66), the absolute slice (R68) and the byte-serial relative copy (R69), each once for the
short and the extended opcode that use it. -/

namespace Sys2Proof.Machine

/-- `[v] * n` (R136). -/
def fillRun (n : Nat) (v : Byte) : List Byte := List.replicate n v

/-- The pair run: index `i` WITHIN THE RUN even gives `p0`, odd gives `p1` (R137, D21). -/
def pairRun (n : Nat) (p0 p1 : Byte) : List Byte :=
  (List.range n).map fun i => if i % 2 = 0 then p0 else p1

/-- The ramp: (v + i) mod 256 (R138). -/
def rampRun (n : Nat) (v : Byte) : List Byte :=
  (List.range n).map fun i => BitVec.ofNat 8 (v.toNat + i)

/-- `OUT[o .. o+n)`, read whole; none where `o + n > len(OUT)` (R68, R152). -/
def absSlice (out : List Byte) (o n : Nat) : Option (List Byte) :=
  if o + n ≤ out.length then some ((out.drop o).take n) else none

/-- An absolute copy whose bytes pass through `f`: OutOfRangeReference where the slice is not wholly
in OUT, otherwise the commit of the whole slice (R150, R151). -/
def absCopy (start s : State) (n : Nat) (o : Half) (f : Byte → Byte) : State :=
  match absSlice s.out o.toNat n with
  | some new => commit start s (new.map f)
  | none => faultEntry start .outOfRangeReference s

/-- The loop of RelCopy (R161): `n` times, read OUT at `a` as it is now, append the byte, and move `a`
on by one. None if a read finds no byte. -/
def relLoop : Nat → Nat → List Byte → Option (List Byte)
  | 0, _, out => some out
  | n + 1, a, out =>
    match out[a]? with
    | some v => relLoop n (a + 1) (out ++ [v])
    | none => none

/-- RelCopy(n, b) (R161): the range check, the capacity check, then the loop from L0 - b. -/
def relCopy (start s : State) (n : Nat) (b : Byte) : State :=
  if b = 0#8 ∨ s.out.length < b.toNat then faultEntry start .outOfRangeReference s
  else if capAllows s.cfg (s.out.length + n) then
    match relLoop n (s.out.length - b.toNat) s.out with
    | some out => { s with out := out }
    | none => faultEntry start .outOfRangeReference s
  else faultEntry start .outputOverflow s

end Sys2Proof.Machine
end

