-- ==== Sys2Proof/Machine/Copy.lean ====
section
/-! DEFINITION. Families 4, 5 and 6: the copies from OUT (42_absolute_copy, 43_relative_copy). -/

namespace Sys2Proof.Machine

/-- ACPY (R150). -/
def execAcpy (n : Nat) (o : Half) (s : State) : Result :=
  .next (absCopy s (s.consume (.acpy n o)) n o fun v => v)

/-- AINV (R151): each appended byte is the source byte XOR 0xFF. -/
def execAinv (n : Nat) (o : Half) (s : State) : Result :=
  .next (absCopy s (s.consume (.ainv n o)) n o fun v => v ^^^ 0xFF#8)

/-- RCPY (R160). -/
def execRcpy (n : Nat) (b : Byte) (s : State) : Result :=
  .next (relCopy s (s.consume (.rcpy n b)) n b)

end Sys2Proof.Machine
end

