-- ==== Sys2Proof/Machine/Extended.lean ====
section
/-! DEFINITION. Family 7: the extended-count forms and the reserved sub-opcodes (44_extended). -/

namespace Sys2Proof.Machine

/-- XLIT (R172). -/
def execXlit (d : List Byte) (s : State) : Result :=
  .next (commit s (s.consume (.xlit d)) d)

/-- XFILL (R173). -/
def execXfill (n : Nat) (v : Byte) (s : State) : Result :=
  .next (commit s (s.consume (.xfill n v)) (fillRun n v))

/-- XPAIR (R174). -/
def execXpair (n : Nat) (p0 p1 : Byte) (s : State) : Result :=
  .next (commit s (s.consume (.xpair n p0 p1)) (pairRun n p0 p1))

/-- XRCPY (R175). -/
def execXrcpy (n : Nat) (b : Byte) (s : State) : Result :=
  .next (relCopy s (s.consume (.xrcpy n b)) n b)

/-- XRSV (R176): MalformedOpcode, always, with the control byte alone consumed. -/
def execXrsv (ctl : Byte) (s : State) : Result :=
  .next (faultEntry s .malformedOpcode (s.consume (.xrsv ctl)))

end Sys2Proof.Machine
end

