-- ==== Sys2Proof/Machine/Literal.lean ====
section
/-! DEFINITION. Families 0 to 3, which never read OUT (41_literal_and_fill). -/

namespace Sys2Proof.Machine

/-- LIT (R135): the literal bytes are appended as they stand in the stream. -/
def execLit (d : List Byte) (s : State) : Result :=
  .next (commit s (s.consume (.lit d)) d)

/-- FILL (R136). -/
def execFill (n : Nat) (v : Byte) (s : State) : Result :=
  .next (commit s (s.consume (.fill n v)) (fillRun n v))

/-- PAIR (R137). -/
def execPair (n : Nat) (p0 p1 : Byte) (s : State) : Result :=
  .next (commit s (s.consume (.pair n p0 p1)) (pairRun n p0 p1))

/-- RAMP (R138). -/
def execRamp (n : Nat) (v : Byte) (s : State) : Result :=
  .next (commit s (s.consume (.ramp n v)) (rampRun n v))

end Sys2Proof.Machine
end

