-- ==== Sys2Proof/Machine/Dispatch.lean ====
section
/-! DEFINITION. The meaning of an instruction (40_dispatch_and_end R120): one arm per constructor, each
one call of that instruction's own meaning. -/

namespace Sys2Proof.Machine

/-- The whole step of one opcode whose bytes have been decoded, from the state before its control
byte was fetched. It does not look at PHASE: the step runs it only in DECODE (entry 15). -/
def exec (i : Instr) (s : State) : Host.Outcome State Fault Refusal :=
  match i with
  | .lit d => Sys2Proof.Machine.execLit d s
  | .fill n v => Sys2Proof.Machine.execFill n v s
  | .pair n p0 p1 => Sys2Proof.Machine.execPair n p0 p1 s
  | .ramp n v => Sys2Proof.Machine.execRamp n v s
  | .acpy n o => Sys2Proof.Machine.execAcpy n o s
  | .ainv n o => Sys2Proof.Machine.execAinv n o s
  | .rcpy n b => Sys2Proof.Machine.execRcpy n b s
  | .xlit d => Sys2Proof.Machine.execXlit d s
  | .xfill n v => Sys2Proof.Machine.execXfill n v s
  | .xpair n p0 p1 => Sys2Proof.Machine.execXpair n p0 p1 s
  | .xrcpy n b => Sys2Proof.Machine.execXrcpy n b s
  | .xrsv ctl => Sys2Proof.Machine.execXrsv ctl s
  | .endStream => Sys2Proof.Machine.execEndStream s

end Sys2Proof.Machine
end

