-- ==== Sys2Proof/Machine/Tile.lean ====
section
/-! DEFINITION. TEX, the planar tile expander (45_tile_expander): a 32-byte record (30_encoding R106)
to an 8×8 grid of 4-bit pixel indices. -/

namespace Sys2Proof.Machine

/-- A tile record, 32 bytes (R106). -/
abbrev Tile := Vector Byte 32

/-- A pixel index, 4 bits (10_state R34). -/
abbrev PixelIndex := BitVec 4

/-- bit(v, k), 0 or 1 (00_scope R8). -/
def bitOf (v : Byte) (k : Nat) : Nat := (v.getLsbD k).toNat

/-- One lane of TILEX (R185, R186): bit 7 - x of the four plane bytes of row y, with weights 1, 2, 4
and 8. -/
def tilePixel (t : Tile) (y x : Fin 8) : PixelIndex :=
  BitVec.ofNat 4
    (bitOf t[2 * y.val] (7 - x.val) + 2 * bitOf t[2 * y.val + 1] (7 - x.val)
      + 4 * bitOf t[2 * y.val + 16] (7 - x.val) + 8 * bitOf t[2 * y.val + 17] (7 - x.val))

/-- TILEX(t): the eight rows of eight indices (R185). -/
def tilex (t : Tile) : List (List PixelIndex) :=
  (List.finRange 8).map fun y => (List.finRange 8).map fun x => tilePixel t y x

/-- Tile record i, OUT[32 i .. 32 i + 32), where all of it exists (R187). -/
def tileRecord (out : List Byte) (i : Nat) : Option Tile :=
  if h : ((out.drop (32 * i)).take 32).length = 32 then
    some ⟨((out.drop (32 * i)).take 32).toArray, h⟩
  else none

end Sys2Proof.Machine
end

