-- ==== Sys2Proof/Machine/Palette.lean ====
section
/-! DEFINITION. PAL, the palette mapper (46_palette_mapper): a pixel index to an RGB triple, through the
constant grey ramp or the loaded 5-5-5 words. -/

namespace Sys2Proof.Machine

/-- PAL_ROM[p] = (17 p, 17 p, 17 p) (R196, 10_state R36). -/
def palRom (p : PixelIndex) : Rgb :=
  let c : Byte := BitVec.ofNat 8 (17 * p.toNat)
  { r := c, g := c, b := c }

/-- A 5-bit channel scaled to 8 bits: 8 c5, exact (R197, R198). -/
def scaleChannel (c : BitVec 5) : Byte := BitVec.ofNat 8 (8 * c.toNat)

/-- PALCONV(w): red in bits 4:0, green in 9:5, blue in 14:10, bit 15 ignored (R107, R197). -/
def palConv (w : Half) : Rgb :=
  { r := scaleChannel (w.extractLsb' 0 5)
    g := scaleChannel (w.extractLsb' 5 5)
    b := scaleChannel (w.extractLsb' 10 5) }

/-- The raw word of PAL_RAM entry i: the word pushed, or no value the model knows (R38, 93 U10). -/
def State.palWord (s : State) (i : Nat) : Half := (s.palRam[i]?).getD (Config.palUnset i)

/-- PALMAP(p): the ROM or the RAM palette, as PAL_SEL says (R195). -/
def State.palMap (s : State) (p : PixelIndex) : Rgb :=
  if s.palSel then palConv (s.palWord p.toNat) else palRom p

end Sys2Proof.Machine
end

