-- ==== Sys2Proof/Machine/Compose.lean ====
section
/-! DEFINITION. CMP, the raster address generator, the render start and the REN step
(47_image_composer). -/

namespace Sys2Proof.Machine

/-- The key of raster pixel (x, y) of the 128-pixel-wide raster (10_state R43). -/
def pixelKey (x y : Nat) : Nat := 128 * y + x

/-- X of COMPOSE: (i mod 16) * 8 + x (R214). -/
def composeX (i x : Nat) : Nat := (i % 16) * 8 + x

/-- Y of COMPOSE: (i div 16) * 8 + y (R214). -/
def composeY (i y : Nat) : Nat := (i / 16) * 8 + y

/-- The 64 pixel writes of tile i, row by row: COMPOSE(i, x, y, PALMAP(px[y][x])) (R212, R214). -/
def tileWrites (s : State) (i : Nat) (t : Tile) : List (Nat × Rgb) :=
  (List.finRange 8).flatMap fun y =>
    (List.finRange 8).map fun x =>
      (pixelKey (composeX i x.val) (composeY i y.val), s.palMap (tilePixel t y x))

/-- RenderStart (R211): the two checks in order, each a fault entry with nothing latched; then the
latches, an unwritten raster, and phase RENDER. -/
def renderStart (s : State) : State :=
  if s.palSel = true ∧ s.palCount < 16 then faultEntry s .configurationError s
  else if (s.outLen / 32) % 16 ≠ 0 then faultEntry s .rasterRange s
  else
    { s with
      tTiles := s.outLen / 32
      rasterH := s.outLen / 64
      raster := []
      tileIdx := 0
      phase := .render }

/-- One step of REN (R212): the end of the render, or one tile. The two faults arise only in states no
run reaches (assumption log, entry 13). -/
def renStep (s : State) : Result :=
  if s.tileIdx = s.tTiles then .next { s with phase := .rendered }
  else
    match tileRecord s.out s.tileIdx with
    | none => .fault .tileRecordMissing
    | some t =>
      if composeY s.tileIdx 7 < s.rasterH then
        .next { s with
          raster := Cells.writeAll s.raster (tileWrites s s.tileIdx t)
          tileIdx := s.tileIdx + 1 }
      else .fault .pixelOutsideRaster

end Sys2Proof.Machine
end

