-- ==== Sys2Proof/Machine/HostPort.lean ====
section
/-! DEFINITION. The host's side of the machine: its writes (10_state R32, R33, R40, R46, 70 R250) as one
function of a move, and its reads (R33, R46, 60 R235) as functions of the state, which change nothing.
A read the spec does not give the host answers none. -/

namespace Sys2Proof.Machine

/-! ### Writes -/

/-- A write to CMD (R32): START, RENDER and RESET in the phases that accept them; every other write
has no effect at all. -/
def writeCmd (v : Nat) (s : State) : State :=
  if v = 1 ∧ s.phase = .idle then { s with phase := .decode }
  else if v = 2 ∧ s.phase = .decoded then renderStart s
  else if v = 3 ∧ s.phase.hostOwned = true then s.resetMachine
  else s

/-- A value POS_W bits hold (R33: "POS_W bits if POS_W is finite"). -/
def posHolds (c : Config) (v : Nat) : Bool :=
  match c.posW with
  | none => true
  | some w => decide (v < 2 ^ w)

/-- SRC_BASE (R23), in IDLE: any natural number is legal. Of a value that a finite POS_W does not hold (R33),
the spec does not say what the register keeps: it keeps a free value of POS_W bits (entry 18). -/
def writeSrcBase (v : Nat) (s : State) : State :=
  match s.cfg.posW with
  | none => { s with srcBase := v }
  | some w =>
    if v < 2 ^ w then { s with srcBase := v }
    else { s with
      srcBase := Config.srcBaseWide s.freeCount % 2 ^ w
      freeCount := s.freeCount + 1 }

/-- PAL_PUSH (R40): the sixteenth word is the last that is kept. -/
def pushPalette (w : Half) (s : State) : State :=
  if s.palCount < 16 then { s with palRam := s.palRam ++ [w] } else s

/-- One move of the host. Register writes outside IDLE are ignored (R33); a write of SRC outside IDLE or past
SRC_SIZE is no move the host has (R46, R76, R22, entry 11). -/
def hostMove (m : HostMove) (s : State) : Result :=
  match m with
  | .cmd v => .next (writeCmd v s)
  | .setSrcBase v =>
    if s.phase = .idle then .next (writeSrcBase v s) else .next s
  | .setPalSel v =>
    if s.phase = .idle then .next { s with palSel := v.testBit 0 } else .next s
  | .palPush w => if s.phase = .idle then .next (pushPalette w s) else .next s
  | .writeSrc a v =>
    if s.phase = .idle then
      if a < s.cfg.srcSize then .next { s with src := Cells.write s.src a v }
      else .refused .srcAddressAbsent
    else .refused .srcWriteOutsideIdle
  | .hardReset => .next s.resetMachine

/-! ### Reads

While DEC or REN is enabled the host reads the numbered registers and nothing else (70 R262). -/

/-- The numbered registers (R33). -/
inductive HostReg where
  | cmd | phase | err | srcBase | srcPos | opPos | ctl | outLen | compSize | palSel | palCount
  | palPush | tileIdx | tTiles | rasterH
deriving DecidableEq, Repr

/-- The register numbers of R33. -/
def HostReg.number : HostReg → Nat
  | .cmd => 0
  | .phase => 1
  | .err => 2
  | .srcBase => 3
  | .srcPos => 4
  | .opPos => 5
  | .ctl => 6
  | .outLen => 7
  | .compSize => 8
  | .palSel => 9
  | .palCount => 10
  | .palPush => 11
  | .tileIdx => 12
  | .tTiles => 13
  | .rasterH => 14

/-- A host read of a numbered register, in every phase (R46). CMD and PAL_PUSH are write-only (R33). -/
def State.hostReadReg (s : State) : HostReg → Option Nat
  | .cmd => none
  | .phase => some s.phase.code
  | .err => some s.err.code
  | .srcBase => some s.srcBase
  | .srcPos => some s.srcPos
  | .opPos => some s.opPos
  | .ctl => some s.ctl.toNat
  | .outLen => some s.outLen
  | .compSize => some s.compSize
  | .palSel => some s.palSel.toNat
  | .palCount => some s.palCount
  | .palPush => none
  | .tileIdx => some s.tileIdx
  | .tTiles => some s.tTiles
  | .rasterH => some s.rasterH

/-- A host read of SRC (R60), in the phases in which neither DEC nor REN is enabled (R262); in FAULT it is how
the host finds the offset or back distance that faulted (60 R223; entry 12). -/
def State.hostReadSrc (s : State) (a : Nat) : Option Byte :=
  if s.phase.hostOwned = true ∧ a < s.cfg.srcSize then some (s.srcByte a) else none

/-- A host read of OUT, in IDLE, DECODED, RENDERED and FAULT (R46). -/
def State.hostReadOut (s : State) (i : Nat) : Option Byte :=
  if s.phase.hostOwned then s.outRead i else none

/-- A host read of PAL_RAM (R33), in the phases in which neither DEC nor REN is enabled (R262, D15); an entry
not pushed holds any value (93 U10). -/
def State.hostReadPalRam (s : State) (i : Nat) : Option Half :=
  if s.phase.hostOwned = true ∧ i < 16 then some (s.palWord i) else none

/-- A host read of RASTER, in RENDERED (R46); an unwritten pixel has nothing to read (R44). -/
def State.hostReadRaster (s : State) (x y : Nat) : Option Rgb :=
  if s.phase = .rendered ∧ x < 128 ∧ y < s.rasterH then Cells.read s.raster (pixelKey x y) else none

/-- The pixel word {R, G, B} of a port that needs one word per pixel (R43). -/
def packPixel (c : Rgb) : BitVec 24 := c.r ++ c.g ++ c.b

/-- The last sixteen output bytes, a diagnostic of the host (60 R235), in the phases in which it may read OUT
(R46). -/
def State.lastOutput (s : State) : Option (List Byte) :=
  if s.phase.hostOwned then some (s.out.drop (s.out.length - 16)) else none

/-- The palette words of a byte sequence, little-endian; a trailing odd byte forms no word (R40,
20_memory R61). -/
def paletteWords : List Byte → List Half
  | lo :: hi :: bs => offsetLE lo hi :: paletteWords bs
  | _ => []

end Sys2Proof.Machine
end

