-- ==== Sys2Proof/Machine/Fetch.lean ====
section
/-! DEFINITION. Fetching and running: the opcode at the front of the stream, the step of DEC
(40_dispatch_and_end R120), and the turn of whichever agent is enabled (00_scope R5, 10_state R30).
They stand here and not in Machine/Step.lean, which only calls them. -/

namespace Sys2Proof.Machine

/-- The opcode at SRC[SRC_BASE + SRC_POS], or why there is none (R121, R221). -/
def State.fetch (s : State) : Except DecodeError Instr := decode s.cfg.xsel s.stream

/-- One step of DEC (R120): the opcode's own step, or the fault entry of a stream that ends first. -/
def decStep (s : State) : Result :=
  match s.fetch with
  | .ok i => exec i s
  | .error e => .next (fetchFault s e)

/-- The turn of the enabled agent (R30). Where only the host is enabled and makes no move, nothing
happens (assumption log, entry 9). -/
def agentTurn (s : State) : Result :=
  match s.phase with
  | .idle => .next s
  | .decode => decStep s
  | .decoded => .next s
  | .render => renStep s
  | .rendered => .next s
  | .fault => .next s

/-- The state with the bytes `bs` stored from address SRC_BASE + SRC_POS on and SRC large enough to
hold them, DEC enabled and no host move pending: what it takes for the next step to run them. -/
def State.withStream (s : State) (bs : List Byte) : State :=
  { s with
    cfg := { s.cfg with srcSize := max s.cfg.srcSize (s.srcAddr + bs.length) }
    src := Memory.load s.src s.srcAddr bs
    phase := .decode
    inbox := [] }

end Sys2Proof.Machine
end

