-- ==== Sys2Proof/Machine/Step.lean ====
section
/-! DEFINITION. One step of the machine: the next turn of the inbox, which is the enabled agent's when
the inbox holds no host move for it (00_scope R5, R6; assumption log, entry 8). -/

namespace Sys2Proof.Machine

/-- One turn: a host move, or a step of the enabled agent. -/
def step (s : State) : Host.Outcome State Fault Refusal :=
  match s.inbox with
  | [] => agentTurn s
  | none :: rest => agentTurn { s with inbox := rest }
  | some m :: rest => hostMove m { s with inbox := rest }

/-- `s` with the table word `w` stored where the next step fetches, and DEC enabled. -/
def State.withFetchWord (s : State) (nbits w : Nat) : State := s.withStream (tableBytes nbits w)

end Sys2Proof.Machine
end

