-- ==== Sys2Proof/Machine/Serial.lean ====
section
/-! DEFINITION. The spec's own pseudocode of DEC, byte by byte: SrcRead8 (00_scope R10), DecStep (40
R120), the opcodes (41 to 44), each running and raising as it is written there. The machine does not
run this; that a step of DEC does what it does is an obligation (SerialDecodeStepAgrees). -/

namespace Sys2Proof.Machine

/-- A piece of pseudocode: it changes the state and answers a value, or raises a fault of some code,
the state at the raise being kept (R12). -/
abbrev Serial (α : Type) := ExceptT ErrCode (StateM State) α

/-- SrcRead8() (R10). -/
def srcRead8 : Serial Byte := do
  let s ← get
  if s.cfg.srcSize ≤ s.srcBase + s.srcPos then throw ErrCode.sourceExhausted
  set { s with srcPos := s.srcPos + 1 }
  return s.srcByte (s.srcBase + s.srcPos)

/-- `for i = 0 .. n-1 do d[i] <- SrcRead8()` (R135, R172). -/
def srcReadMany : Nat → Serial (List Byte)
  | 0 => return []
  | n + 1 => do
    let v ← srcRead8
    let d ← srcReadMany n
    return v :: d

/-- SrcRead2() (R10). -/
def srcRead2 : Serial (Byte × Byte) := do
  let p0 ← srcRead8
  let p1 ← srcRead8
  return (p0, p1)

/-- SrcRead16LE() (R10). -/
def srcRead16LE : Serial Nat := do
  let lo ← srcRead8
  let hi ← srcRead8
  return lo.toNat + 256 * hi.toNat

/-- OutRead(i) (R11). -/
def outRead8 (i : Nat) : Serial Byte := do
  let s ← get
  match s.out[i]? with
  | some v => return v
  | none => throw ErrCode.outOfRangeReference

/-- OutAppend(v) (R11). -/
def outAppend (v : Byte) : Serial Unit := modify fun s => { s with out := s.out ++ [v] }

/-- `for i = 0 .. len(new)-1 do OutAppend(new[i])` (R134). -/
def outAppendAll : List Byte → Serial Unit
  | [] => return ()
  | v :: new => do
    outAppend v
    outAppendAll new

/-- Commit(new) (R134). -/
def serialCommit (new : List Byte) : Serial Unit := do
  let s ← get
  if !capAllows s.cfg (s.out.length + new.length) then throw ErrCode.outputOverflow
  outAppendAll new

/-- `for i = 0 .. n-1 do v <- OutRead(base + i); OutAppend(v)` (R161). -/
def serialRelLoop (base : Nat) : Nat → Serial Unit
  | 0 => return ()
  | n + 1 => do
    let v ← outRead8 base
    outAppend v
    serialRelLoop (base + 1) n

/-- RelCopy(n, b) (R161). -/
def serialRelCopy (n : Nat) (b : Byte) : Serial Unit := do
  let s ← get
  if b.toNat = 0 ∨ s.out.length < b.toNat then throw ErrCode.outOfRangeReference
  if !capAllows s.cfg (s.out.length + n) then throw ErrCode.outputOverflow
  serialRelLoop (s.out.length - b.toNat) n

/-- The absolute copies (R150, R151): check, read the slice, pass it through `f`, commit. -/
def serialAbsCopy (n o : Nat) (f : Byte → Byte) : Serial Unit := do
  let s ← get
  if s.out.length < o + n then throw ErrCode.outOfRangeReference
  serialCommit (((s.out.drop o).take n).map f)

/-- XCount() (R171). -/
def xCount (ctl : Byte) : Serial Nat := do
  let k ← srcRead8
  return extCount ctl k

/-- The opcode a control byte selects, running (R120, R170 and each opcode's rule). -/
def serialOpcode (ctl : Byte) : Form → Serial Unit
  | .lit => do
    let d ← srcReadMany (shortCount ctl)
    serialCommit d
  | .fill => do
    let v ← srcRead8
    serialCommit (List.replicate (shortCount ctl) v)
  | .pair => do
    let p ← srcRead2
    serialCommit ((List.range (shortCount ctl)).map fun i => if i % 2 = 0 then p.1 else p.2)
  | .ramp => do
    let v ← srcRead8
    serialCommit ((List.range (shortCount ctl)).map fun i => BitVec.ofNat 8 (v.toNat + i))
  | .acpy => do
    let o ← srcRead16LE
    serialAbsCopy (shortCount ctl) o fun v => v
  | .ainv => do
    let o ← srcRead16LE
    serialAbsCopy (shortCount ctl) o fun v => v ^^^ 0xFF#8
  | .rcpy => do
    let b ← srcRead8
    serialRelCopy (shortCount ctl) b
  | .xlit => do
    let n ← xCount ctl
    let d ← srcReadMany n
    serialCommit d
  | .xfill => do
    let n ← xCount ctl
    let v ← srcRead8
    serialCommit (List.replicate n v)
  | .xpair => do
    let n ← xCount ctl
    let p ← srcRead2
    serialCommit ((List.range n).map fun i => if i % 2 = 0 then p.1 else p.2)
  | .xrcpy => do
    let n ← xCount ctl
    let b ← srcRead8
    serialRelCopy n b
  | .xrsv => throw ErrCode.malformedOpcode
  | .endStream => modify fun s => { s with compSize := s.opPos, phase := .decoded }

/-- The body of DecStep (R120). -/
def serialDecStep : Serial Unit := do
  modify fun s => { s with opPos := s.srcPos }
  let ctl ← srcRead8
  modify fun s => { s with ctl := ctl }
  let s ← get
  serialOpcode ctl (formOf s.cfg.xsel ctl)

/-- DecStep with its fault entry (R120, R228). -/
def runSerialDecStep (start : State) : State :=
  match serialDecStep.run start with
  | (.ok _, s) => s
  | (.error e, s) => faultEntry start e s

end Sys2Proof.Machine
end

