-- ==== Sys2Proof/Safety.lean ====
section
/-! DEFINITION. What counts as a safe run, and the words claims are stated in: the room left in OUT, the
bytes an opcode produces, the raster a buffer renders to, and the invariant of the machine. -/

namespace Sys2Proof.Machine

/-! ### Words for one opcode -/

/-- OUT has room for `n` more bytes: OUT_LEN + n does not exceed OUT_CAP (41 R134, 60 R224). -/
def State.Fits (s : State) (n : Nat) : Prop := ∀ cap, s.cfg.outCap = some cap → s.out.length + n ≤ cap

/-- DEC is enabled, the host makes no move at this step, and the control byte at the program counter is
`c` (40 R120, R121). -/
def State.AtControl (s : State) (c : Byte) : Prop :=
  s.phase = .decode ∧ s.inbox = [] ∧ s.srcBase + s.srcPos < s.cfg.srcSize ∧
    s.srcByte (s.srcBase + s.srcPos) = c

/-- The stream still has `n` bytes at the program counter, control byte included. -/
def State.Has (s : State) (n : Nat) : Prop := s.srcBase + s.srcPos + n ≤ s.cfg.srcSize

/-- The k-th stream byte after the control byte at the program counter. -/
def State.operand (s : State) (k : Nat) : Byte := s.srcByte (s.srcBase + s.srcPos + 1 + k)

/-- The state after an opcode with control byte `c` and total length `len` has appended `new`
(R120, R124, R134): nothing but OP_POS, CTL, SRC_POS and OUT is written. -/
def State.appends (s : State) (c : Byte) (len : Nat) (new : List Byte) : State :=
  { s with opPos := s.srcPos, ctl := c, srcPos := s.srcPos + len, out := s.out ++ new }

/-- The state after an opcode with control byte `c` has read `len` bytes and raised `e` (60 R228): OUT is
as it was, and nothing but OP_POS, CTL, SRC_POS, ERR and PHASE is written. -/
def State.raises (s : State) (c : Byte) (len : Nat) (e : ErrCode) : State :=
  { s with opPos := s.srcPos, ctl := c, srcPos := s.srcPos + len, err := e, phase := .fault }

/-- The state after the stream ended inside an opcode with control byte `c`: every byte there was has
been read (00 R10, 60 R221). -/
def State.exhausts (s : State) (c : Byte) : State :=
  s.raises c (s.cfg.srcSize - (s.srcBase + s.srcPos)) .sourceExhausted

/-- The run length of an opcode: how many bytes it appends (00 R14). -/
def runLength : Instr → Nat
  | .lit d => d.length
  | .fill n _ => n
  | .pair n _ _ => n
  | .ramp n _ => n
  | .acpy n _ => n
  | .ainv n _ => n
  | .rcpy n _ => n
  | .xlit d => d.length
  | .xfill n _ => n
  | .xpair n _ _ => n
  | .xrcpy n _ => n
  | .xrsv _ => 0
  | .endStream => 0

/-- The last `b` bytes of `out`, repeated cyclically and cut to `n` bytes (43 R162). -/
def cycleRun (out : List Byte) (n b : Nat) : List Byte :=
  (List.range n).map fun i => out.getD (out.length - b + i % b) 0

/-- The bytes an opcode produces from OUT, where it is a producing opcode in range: the right-hand
sides of R135 to R138, R150, R151, R162 and R172 to R175. -/
def produced (out : List Byte) : Instr → Option (List Byte)
  | .lit d => some d
  | .fill n v => some (List.replicate n v)
  | .pair n p0 p1 => some ((List.range n).map fun i => if i % 2 = 0 then p0 else p1)
  | .ramp n v => some ((List.range n).map fun i => BitVec.ofNat 8 (v.toNat + i))
  | .acpy n o => if o.toNat + n ≤ out.length then some ((out.drop o.toNat).take n) else none
  | .ainv n o =>
    if o.toNat + n ≤ out.length then some (((out.drop o.toNat).take n).map fun v => v ^^^ 0xFF#8)
    else none
  | .rcpy n b =>
    if 1 ≤ b.toNat ∧ b.toNat ≤ out.length then some (cycleRun out n b.toNat) else none
  | .xlit d => some d
  | .xfill n v => some (List.replicate n v)
  | .xpair n p0 p1 => some ((List.range n).map fun i => if i % 2 = 0 then p0 else p1)
  | .xrcpy n b =>
    if 1 ≤ b.toNat ∧ b.toNat ≤ out.length then some (cycleRun out n b.toNat) else none
  | .xrsv _ => none
  | .endStream => none

/-- OUT after a sequence of opcodes, where each is in range and within OUT_CAP. -/
def producedAll (c : Config) : List Instr → List Byte → Option (List Byte)
  | [], out => some out
  | i :: is, out =>
    match produced out i with
    | some new =>
      if capAllows c (out.length + new.length) then producedAll c is (out ++ new) else none
    | none => none

/-! ### The raster of a buffer -/

/-- The tile that covers raster pixel (X, Y) (47 R215). -/
def tileAt (x y : Nat) : Nat := (y / 8) * 16 + x / 8

/-- The plane bit of raster pixel (X, Y) from byte `j` of its tile's record (45 R186, 47 R213). -/
def planeBitAt (out : List Byte) (x y j : Nat) : Nat :=
  ((out.getD (32 * tileAt x y + j) 0).toNat / 2 ^ (7 - x % 8)) % 2

/-- The pixel index of raster pixel (X, Y), from the four plane bytes of its row (47 R213, R215). -/
def indexAt (out : List Byte) (x y : Nat) : Nat :=
  planeBitAt out x y (2 * (y % 8)) + 2 * planeBitAt out x y (2 * (y % 8) + 1)
    + 4 * planeBitAt out x y (2 * (y % 8) + 16) + 8 * planeBitAt out x y (2 * (y % 8) + 17)

/-! ### The invariant -/

/-- What every state a run reaches satisfies. Each field cites the rule it is. -/
structure Inv (s : State) : Prop where
  /-- SRC is in canonical form, and every byte in it exists (R22). -/
  src_wf : Memory.wf s.src = true
  src_below : Cells.below s.cfg.srcSize s.src = true
  /-- SRC_BASE is a value POS_W bits hold (R33). -/
  base_fits : posHolds s.cfg s.srcBase = true
  /-- SRC_POS never exceeds SRC_SIZE - SRC_BASE, and stays 0 where that is not positive (R24). -/
  pos_le : s.srcPos ≤ s.cfg.srcSize - s.srcBase
  /-- The latest opcode began at or before the program counter (R25). -/
  op_le : s.opPos ≤ s.srcPos
  /-- OUT_LEN ≤ OUT_CAP (R27, R224). -/
  cap : capAllows s.cfg s.out.length = true
  /-- PAL_COUNT is 0 to 16 (R39). -/
  pal_count : s.palCount ≤ 16
  /-- ERR ≠ 0 if and only if PHASE = FAULT (R31). -/
  err_iff : s.err ≠ .none ↔ s.phase = .fault
  /-- FormatViolation is never raised (R227). -/
  err_raised : s.err ≠ .formatViolation
  /-- IDLE is entered by reset only, and nothing has been decoded in it (R45, R47). -/
  idle_fresh : s.phase = .idle →
    s.srcPos = 0 ∧ s.opPos = 0 ∧ s.ctl = 0 ∧ s.out = [] ∧ s.compSize = 0
  /-- COMP_SIZE is 0 in DECODE and in a FAULT entered from DECODE (R28). -/
  comp_zero : s.phase = .decode ∨ s.err = .sourceExhausted ∨ s.err = .malformedOpcode ∨
      s.err = .outOfRangeReference ∨ s.err = .outputOverflow → s.compSize = 0
  /-- From END on COMP_SIZE is the sentinel's position, and CTL the sentinel (R28, R122, R228). -/
  comp_set : s.phase = .decoded ∨ s.phase = .render ∨ s.phase = .rendered ∨
      s.err = .configurationError ∨ s.err = .rasterRange →
    s.compSize = s.opPos ∧ s.srcPos = s.opPos + 1 ∧ s.ctl = 0xFF
  /-- Outside RENDER and RENDERED the render latches are 0 and RASTER has no pixel (R42, R46). -/
  latches_clear : s.phase ≠ .render → s.phase ≠ .rendered →
    s.tileIdx = 0 ∧ s.tTiles = 0 ∧ s.rasterH = 0 ∧ s.raster = []
  /-- In RENDER and RENDERED they are what render start latched (R41, R42, R211). -/
  latches_set : s.phase = .render ∨ s.phase = .rendered →
    s.tTiles = s.outLen / 32 ∧ s.rasterH = s.outLen / 64 ∧ s.tTiles % 16 = 0 ∧
      s.tileIdx ≤ s.tTiles ∧ (s.palSel = true → s.palCount = 16)
  /-- In RENDERED every tile has been rendered (R30). -/
  all_rendered : s.phase = .rendered → s.tileIdx = s.tTiles
  /-- RASTER is in canonical form, and every pixel in it exists (R43). -/
  raster_wf : Cells.wf s.raster = true
  raster_below : Cells.below (128 * s.rasterH) s.raster = true

/-- A safe run: the machine has not entered FAULT and its state satisfies the invariant. -/
def Safe (s : State) : Prop := Inv s ∧ s.phase ≠ .fault

end Sys2Proof.Machine
end

