-- ==== Sys2Proof/Certificates/Slice0/Obligations.lean ====
section
/-! DEFINITION. The statements for the provers. Each docstring names the rules of spec/ it formalises; the
words they are written in (Fits, AtControl, appends, raises, exhausts, produced, Inv and so on) are
defined in Sys2Proof/Safety.lean. -/

open Sys2Proof Sys2Proof.Machine

/-! ## Encoding -/

/-- Decode and encode agree: under every selector assignment the encoding of a well-formed instruction,
whatever bytes follow it, decodes to that instruction (30_encoding R96, R104). -/
def Obligations.DecodeOfEncode : Prop :=
  ∀ (x : XSel) (i : Instr) (rest : List Byte), x.wf = true → i.wf x = true →
    decode x (encode x i ++ rest) = .ok i

/-- The other direction (30_encoding R99, R100, R102): what the decoder reads is well formed, and the
bytes it read are that instruction's encoding, so no two instructions share bytes and no bit of a
byte read is dropped. -/
def Obligations.DecodedBytesAreTheEncoding : Prop :=
  ∀ (x : XSel) (bs : List Byte) (i : Instr), decode x bs = .ok i →
    i.wf x = true ∧ ∃ rest, bs = encode x i ++ rest

/-- The opcode map (30_encoding R99), for every admissible selector assignment and then, value range by
value range, for the default one. -/
def Obligations.OpcodeMapSelectsTheForm : Prop :=
  (∀ (x : XSel) (c : Byte), x.wf = true →
    (c.toNat / 32 = 0 → formOf x c = .lit) ∧
    (c.toNat / 32 = 1 → formOf x c = .fill) ∧
    (c.toNat / 32 = 2 → formOf x c = .pair) ∧
    (c.toNat / 32 = 3 → formOf x c = .ramp) ∧
    (c.toNat / 32 = 4 → formOf x c = .acpy) ∧
    (c.toNat / 32 = 5 → formOf x c = .ainv) ∧
    (c.toNat / 32 = 6 → formOf x c = .rcpy) ∧
    (c = 0xFF#8 → formOf x c = .endStream) ∧
    (c.toNat / 32 = 7 → c ≠ 0xFF#8 →
      (c.toNat / 4 % 8 = x.literal.toNat → formOf x c = .xlit) ∧
      (c.toNat / 4 % 8 = x.fill.toNat → formOf x c = .xfill) ∧
      (c.toNat / 4 % 8 = x.pair.toNat → formOf x c = .xpair) ∧
      (c.toNat / 4 % 8 = x.rel.toNat → formOf x c = .xrcpy) ∧
      (c.toNat / 4 % 8 ≠ x.literal.toNat → c.toNat / 4 % 8 ≠ x.fill.toNat →
        c.toNat / 4 % 8 ≠ x.pair.toNat → c.toNat / 4 % 8 ≠ x.rel.toNat →
        formOf x c = .xrsv))) ∧
  (∀ c : Byte, formOf XSel.standard c =
    if c.toNat < 0x20 then .lit
    else if c.toNat < 0x40 then .fill
    else if c.toNat < 0x60 then .pair
    else if c.toNat < 0x80 then .ramp
    else if c.toNat < 0xA0 then .acpy
    else if c.toNat < 0xC0 then .ainv
    else if c.toNat < 0xE0 then .rcpy
    else if c.toNat < 0xE4 then .xlit
    else if c.toNat < 0xE8 then .xfill
    else if c.toNat < 0xEC then .xpair
    else if c.toNat < 0xF8 then .xrsv
    else if c.toNat < 0xFC then .xrcpy
    else if c.toNat < 0xFF then .xrsv
    else .endStream)

/-- The sentinel (30_encoding R93): whatever follows, and whatever the selector assignment, a control byte
0xFF is END and no other control byte is; and a 0xFF among the literal bytes of a run is data. -/
def Obligations.OnlyControlByteFFIsEnd : Prop :=
  (∀ (x : XSel) (bs : List Byte), decode x (0xFF#8 :: bs) = .ok .endStream) ∧
  (∀ (x : XSel) (c : Byte) (bs : List Byte), decode x (c :: bs) = .ok .endStream → c = 0xFF#8) ∧
  (∀ (x : XSel) (n : Nat) (bs : List Byte), 1 ≤ n → n ≤ 32 →
    decode x (BitVec.ofNat 8 (n - 1) :: (List.replicate n 0xFF#8 ++ bs))
      = .ok (.lit (List.replicate n 0xFF#8)))

/-- The assembly of the counts and of the offset (30_encoding R94, R97, and the arithmetic of R95): each is
the exact sum the rule gives, in the rule's range, and every value of the range is reached. -/
def Obligations.OperandAssemblyIsExact : Prop :=
  (∀ c : Byte, shortCount c = c.toNat % 32 + 1 ∧ 1 ≤ shortCount c ∧ shortCount c ≤ 32) ∧
  (∀ c k : Byte, extCount c k = (c.toNat % 4) * 256 + k.toNat + 1 ∧ 1 ≤ extCount c k ∧
    extCount c k ≤ 1024) ∧
  (∀ n, 1 ≤ n → n ≤ 1024 → ∃ c k : Byte, extCount c k = n) ∧
  (∀ lo hi : Byte, (offsetLE lo hi).toNat = lo.toNat + 256 * hi.toNat) ∧
  (∀ o : Half, ∃ lo hi : Byte, offsetLE lo hi = o)

/-- Sanity: words written out from the encoding tables decode to the instructions they stand for, under
the default selector assignment (95_test_vectors S1, S5, V8, V12, V20, V22, V23, F20, S0). -/
def Obligations.WrittenOutWordsDecode : Prop :=
  decode XSel.standard [0x02, 0x11, 0x22, 0x33, 0xFF] = .ok (.lit [0x11, 0x22, 0x33]) ∧
  decode XSel.standard [0x80, 0x00, 0x01] = .ok (.acpy 1 0x0100) ∧
  decode XSel.standard [0x63, 0xFE] = .ok (.ramp 4 0xFE) ∧
  decode XSel.standard [0xA2, 0x01, 0x00] = .ok (.ainv 3 1) ∧
  decode XSel.standard [0xC3, 0x02] = .ok (.rcpy 4 2) ∧
  decode XSel.standard [0xE5, 0x00, 0x3C] = .ok (.xfill 257 0x3C) ∧
  decode XSel.standard [0xE8, 0x02, 0x0A, 0x0B] = .ok (.xpair 3 0x0A 0x0B) ∧
  decode XSel.standard [0xF8, 0x04, 0x02] = .ok (.xrcpy 5 2) ∧
  decode XSel.standard [0xEC] = .ok (.xrsv 0xEC) ∧
  decode XSel.standard [0xFF] = .ok .endStream

/-! ## The step of DEC -/

/-- A step runs the decoded instruction (40_dispatch_and_end R120): where DEC is enabled and the stream holds
the bytes of a well-formed instruction `i`, the step is the meaning of `i`, with nothing added around
it but, where the inbox gives the turn to DEC, that turn taken from it. -/
def Obligations.StepRunsTheDecodedInstruction : Prop :=
  ∀ (s : State) (i : Instr), s.phase = .decode → s.cfg.xsel.wf = true → i.wf s.cfg.xsel = true →
    s.Has i.length → s.srcBytes s.srcAddr i.length = encode s.cfg.xsel i →
    (s.inbox = [] → step s = exec i s) ∧
    (∀ turns, s.inbox = none :: turns → step s = exec i { s with inbox := turns })

/-- The step of DEC is the spec's own pseudocode (40_dispatch_and_end R120): where DEC is enabled and the host
makes no move, a step is the byte-serial DecStep of Machine/Serial.lean with its fault entry; and in
every other phase no step moves the cursor or writes OUT, OP_POS, CTL or COMP_SIZE. -/
def Obligations.SerialDecodeStepAgrees : Prop :=
  (∀ s : State, s.phase = .decode → s.inbox = [] → step s = .next (runSerialDecStep s)) ∧
  (∀ s t : State, s.phase ≠ .decode → s.inbox = [] → step s = .next t →
    t.srcPos = s.srcPos ∧ t.out = s.out ∧ t.opPos = s.opPos ∧ t.ctl = s.ctl ∧
      t.compSize = s.compSize)

/-- A control fetch at or past the end of SRC (40_dispatch_and_end R121): SourceExhausted with OP_POS =
SRC_POS, everything else but ERR and PHASE as it was. -/
def Obligations.MissingControlByteExhausts : Prop :=
  ∀ s : State, s.phase = .decode → s.inbox = [] → s.cfg.srcSize ≤ s.srcBase + s.srcPos →
    step s = .next { s with opPos := s.srcPos, err := .sourceExhausted, phase := .fault }

/-- SRC_POS (40_dispatch_and_end R124): a step that decodes `i` advances it by the length R96 gives the form
of `i`; a step whose stream ends inside an opcode advances it by the bytes that were there. -/
def Obligations.StreamPositionAdvance : Prop :=
  ∀ s t : State, s.phase = .decode → s.inbox = [] → step s = .next t →
    (∀ i, s.fetch = .ok i → t.srcPos = s.srcPos +
      (match i with
       | .lit d => 1 + d.length
       | .fill _ _ => 2
       | .pair _ _ _ => 3
       | .ramp _ _ => 2
       | .acpy _ _ => 3
       | .ainv _ _ => 3
       | .rcpy _ _ => 2
       | .xlit d => 2 + d.length
       | .xfill _ _ => 3
       | .xpair _ _ _ => 4
       | .xrcpy _ _ => 3
       | .xrsv _ => 1
       | .endStream => 1)) ∧
    (∀ e, s.fetch = .error e →
      t.srcPos = s.srcPos + (s.cfg.srcSize - (s.srcBase + s.srcPos)) ∧ t.err = .sourceExhausted)

/-- A step takes the next turn (00_scope R5, 10_state R30; assumption log, entries 8 and 9): with a host move at
the head of the inbox the step is that move, on the state without that turn; with the agent's turn there,
or with the inbox empty, it is a step of DEC in DECODE and of REN in RENDER, and in every other phase
nothing but the turn taken. -/
def Obligations.StepTakesTheNextTurn : Prop :=
  (∀ (s : State) (m : HostMove) (rest : List (Option HostMove)), s.inbox = some m :: rest →
    step s = hostMove m { s with inbox := rest }) ∧
  (∀ (s : State) (rest : List (Option HostMove)),
    (s.inbox = none :: rest ∨ (s.inbox = [] ∧ rest = [])) →
    (s.phase = .decode → step s = decStep { s with inbox := rest }) ∧
    (s.phase = .render → step s = renStep { s with inbox := rest }) ∧
    (s.phase = .idle ∨ s.phase = .decoded ∨ s.phase = .rendered ∨ s.phase = .fault →
      step s = .next { s with inbox := rest }))

/-! ## Each opcode: its result, its fault order, and the bytes that run it -/

/-- LIT (41_literal_and_fill R135). -/
def Obligations.LitAppendsItsBytes : Prop :=
  (∀ (s : State) (d : List Byte), 1 ≤ d.length → d.length ≤ 32 →
    (s.Fits d.length →
      exec (.lit d) s = .next (s.appends (BitVec.ofNat 8 (d.length - 1)) (1 + d.length) d)) ∧
    (¬ s.Fits d.length →
      exec (.lit d) s =
        .next (s.raises (BitVec.ofNat 8 (d.length - 1)) (1 + d.length) .outputOverflow))) ∧
  (∀ (s : State) (c : Byte), s.AtControl c → c.toNat / 32 = 0 →
    (s.Has (1 + (c.toNat % 32 + 1)) →
      step s = exec (.lit ((List.range (c.toNat % 32 + 1)).map s.operand)) s) ∧
    (¬ s.Has (1 + (c.toNat % 32 + 1)) → step s = .next (s.exhausts c)))

/-- FILL (41_literal_and_fill R136). -/
def Obligations.FillRepeatsItsByte : Prop :=
  (∀ (s : State) (n : Nat) (v : Byte), 1 ≤ n → n ≤ 32 →
    (s.Fits n →
      exec (.fill n v) s
        = .next (s.appends (BitVec.ofNat 8 (0x20 + (n - 1))) 2 (List.replicate n v))) ∧
    (¬ s.Fits n →
      exec (.fill n v) s = .next (s.raises (BitVec.ofNat 8 (0x20 + (n - 1))) 2 .outputOverflow))) ∧
  (∀ (s : State) (c : Byte), s.AtControl c → c.toNat / 32 = 1 →
    (s.Has 2 → step s = exec (.fill (c.toNat % 32 + 1) (s.operand 0)) s) ∧
    (¬ s.Has 2 → step s = .next (s.exhausts c)))

/-- PAIR (41_literal_and_fill R137): the parity is that of the index within the run. -/
def Obligations.PairAlternatesWithinTheRun : Prop :=
  (∀ (s : State) (n : Nat) (p0 p1 : Byte), 1 ≤ n → n ≤ 32 →
    (s.Fits n → ∃ new, new.length = n ∧
      (∀ k, k < n → new[k]? = some (if k % 2 = 0 then p0 else p1)) ∧
      exec (.pair n p0 p1) s = .next (s.appends (BitVec.ofNat 8 (0x40 + (n - 1))) 3 new)) ∧
    (¬ s.Fits n →
      exec (.pair n p0 p1) s
        = .next (s.raises (BitVec.ofNat 8 (0x40 + (n - 1))) 3 .outputOverflow))) ∧
  (∀ (s : State) (c : Byte), s.AtControl c → c.toNat / 32 = 2 →
    (s.Has 3 → step s = exec (.pair (c.toNat % 32 + 1) (s.operand 0) (s.operand 1)) s) ∧
    (¬ s.Has 3 → step s = .next (s.exhausts c)))

/-- RAMP (41_literal_and_fill R138): the step is +1 and wraps at 8 bits. -/
def Obligations.RampCountsUpModulo256 : Prop :=
  (∀ (s : State) (n : Nat) (v : Byte), 1 ≤ n → n ≤ 32 →
    (s.Fits n → ∃ new : List Byte, new.length = n ∧
      (∀ k, k < n → (new[k]?).map BitVec.toNat = some ((v.toNat + k) % 256)) ∧
      exec (.ramp n v) s = .next (s.appends (BitVec.ofNat 8 (0x60 + (n - 1))) 2 new)) ∧
    (¬ s.Fits n →
      exec (.ramp n v) s = .next (s.raises (BitVec.ofNat 8 (0x60 + (n - 1))) 2 .outputOverflow))) ∧
  (∀ (s : State) (c : Byte), s.AtControl c → c.toNat / 32 = 3 →
    (s.Has 2 → step s = exec (.ramp (c.toNat % 32 + 1) (s.operand 0)) s) ∧
    (¬ s.Has 2 → step s = .next (s.exhausts c)))

/-- ACPY and its range check (42_absolute_copy R150, R152): range before capacity, on natural numbers. -/
def Obligations.AcpyCopiesTheSlice : Prop :=
  (∀ (s : State) (n : Nat) (o : Half), 1 ≤ n → n ≤ 32 →
    (s.out.length < o.toNat + n →
      exec (.acpy n o) s
        = .next (s.raises (BitVec.ofNat 8 (0x80 + (n - 1))) 3 .outOfRangeReference)) ∧
    (o.toNat + n ≤ s.out.length → ¬ s.Fits n →
      exec (.acpy n o) s = .next (s.raises (BitVec.ofNat 8 (0x80 + (n - 1))) 3 .outputOverflow)) ∧
    (o.toNat + n ≤ s.out.length → s.Fits n → ∃ new, new.length = n ∧
      (∀ k, k < n → new[k]? = s.out[o.toNat + k]?) ∧
      exec (.acpy n o) s = .next (s.appends (BitVec.ofNat 8 (0x80 + (n - 1))) 3 new))) ∧
  (∀ (s : State) (c : Byte), s.AtControl c → c.toNat / 32 = 4 →
    (s.Has 3 → ∃ o : Half, o.toNat = (s.operand 0).toNat + 256 * (s.operand 1).toNat ∧
      step s = exec (.acpy (c.toNat % 32 + 1) o) s) ∧
    (¬ s.Has 3 → step s = .next (s.exhausts c)))

/-- AINV (42_absolute_copy R151, R152): as ACPY, each appended byte complemented, OUT's own bytes as
they were. -/
def Obligations.AinvCopiesTheComplement : Prop :=
  (∀ (s : State) (n : Nat) (o : Half), 1 ≤ n → n ≤ 32 →
    (s.out.length < o.toNat + n →
      exec (.ainv n o) s
        = .next (s.raises (BitVec.ofNat 8 (0xA0 + (n - 1))) 3 .outOfRangeReference)) ∧
    (o.toNat + n ≤ s.out.length → ¬ s.Fits n →
      exec (.ainv n o) s = .next (s.raises (BitVec.ofNat 8 (0xA0 + (n - 1))) 3 .outputOverflow)) ∧
    (o.toNat + n ≤ s.out.length → s.Fits n → ∃ new : List Byte, new.length = n ∧
      (∀ k, k < n → (new[k]?).map BitVec.toNat = (s.out[o.toNat + k]?).map fun v => 255 - v.toNat) ∧
      exec (.ainv n o) s = .next (s.appends (BitVec.ofNat 8 (0xA0 + (n - 1))) 3 new))) ∧
  (∀ (s : State) (c : Byte), s.AtControl c → c.toNat / 32 = 5 →
    (s.Has 3 → ∃ o : Half, o.toNat = (s.operand 0).toNat + 256 * (s.operand 1).toNat ∧
      step s = exec (.ainv (c.toNat % 32 + 1) o) s) ∧
    (¬ s.Has 3 → step s = .next (s.exhausts c)))

/-- RCPY (43_relative_copy R160): byte k appended is the byte at L0 - b + k of OUT as it has grown so far, so
the copy may overlap itself; `b = 0` and `b > L0` raise before anything is appended. -/
def Obligations.RcpyReadsWhatItAppends : Prop :=
  (∀ (s : State) (n : Nat) (b : Byte), 1 ≤ n → n ≤ 32 →
    (b.toNat = 0 ∨ s.out.length < b.toNat →
      exec (.rcpy n b) s
        = .next (s.raises (BitVec.ofNat 8 (0xC0 + (n - 1))) 2 .outOfRangeReference)) ∧
    (1 ≤ b.toNat → b.toNat ≤ s.out.length → ¬ s.Fits n →
      exec (.rcpy n b) s = .next (s.raises (BitVec.ofNat 8 (0xC0 + (n - 1))) 2 .outputOverflow)) ∧
    (1 ≤ b.toNat → b.toNat ≤ s.out.length → s.Fits n → ∃ new, new.length = n ∧
      (∀ k, k < n → new[k]? = (s.out ++ new.take k)[s.out.length - b.toNat + k]?) ∧
      exec (.rcpy n b) s = .next (s.appends (BitVec.ofNat 8 (0xC0 + (n - 1))) 2 new))) ∧
  (∀ (s : State) (c : Byte), s.AtControl c → c.toNat / 32 = 6 →
    (s.Has 2 → step s = exec (.rcpy (c.toNat % 32 + 1) (s.operand 0)) s) ∧
    (¬ s.Has 2 → step s = .next (s.exhausts c)))

/-- XLIT (44_extended R172). -/
def Obligations.XlitAppendsItsBytes : Prop :=
  (∀ (s : State) (d : List Byte), 1 ≤ d.length → d.length ≤ 1024 →
    (s.Fits d.length →
      exec (.xlit d) s = .next (s.appends
        (BitVec.ofNat 8 (0xE0 + 4 * s.cfg.xsel.literal.toNat + (d.length - 1) / 256))
        (2 + d.length) d)) ∧
    (¬ s.Fits d.length →
      exec (.xlit d) s = .next (s.raises
        (BitVec.ofNat 8 (0xE0 + 4 * s.cfg.xsel.literal.toNat + (d.length - 1) / 256))
        (2 + d.length) .outputOverflow))) ∧
  (∀ (s : State) (c : Byte), s.AtControl c → s.cfg.xsel.wf = true → c ≠ 0xFF#8 → c.toNat / 32 = 7 →
    c.toNat / 4 % 8 = s.cfg.xsel.literal.toNat →
    (¬ s.Has 2 → step s = .next (s.exhausts c)) ∧
    (∀ n, n = c.toNat % 4 * 256 + (s.operand 0).toNat + 1 → s.Has 2 →
      (s.Has (2 + n) →
        step s = exec (.xlit ((List.range n).map fun k => s.operand (1 + k))) s) ∧
      (¬ s.Has (2 + n) → step s = .next (s.exhausts c))))

/-- XFILL (44_extended R173). -/
def Obligations.XfillRepeatsItsByte : Prop :=
  (∀ (s : State) (n : Nat) (v : Byte), 1 ≤ n → n ≤ 1024 →
    (s.Fits n →
      exec (.xfill n v) s = .next (s.appends
        (BitVec.ofNat 8 (0xE0 + 4 * s.cfg.xsel.fill.toNat + (n - 1) / 256)) 3
        (List.replicate n v))) ∧
    (¬ s.Fits n →
      exec (.xfill n v) s = .next (s.raises
        (BitVec.ofNat 8 (0xE0 + 4 * s.cfg.xsel.fill.toNat + (n - 1) / 256)) 3 .outputOverflow))) ∧
  (∀ (s : State) (c : Byte), s.AtControl c → s.cfg.xsel.wf = true → c ≠ 0xFF#8 → c.toNat / 32 = 7 →
    c.toNat / 4 % 8 = s.cfg.xsel.fill.toNat →
    (s.Has 3 →
      step s = exec (.xfill (c.toNat % 4 * 256 + (s.operand 0).toNat + 1) (s.operand 1)) s) ∧
    (¬ s.Has 3 → step s = .next (s.exhausts c)))

/-- XPAIR (44_extended R174). -/
def Obligations.XpairAlternatesWithinTheRun : Prop :=
  (∀ (s : State) (n : Nat) (p0 p1 : Byte), 1 ≤ n → n ≤ 1024 →
    (s.Fits n → ∃ new, new.length = n ∧
      (∀ k, k < n → new[k]? = some (if k % 2 = 0 then p0 else p1)) ∧
      exec (.xpair n p0 p1) s = .next (s.appends
        (BitVec.ofNat 8 (0xE0 + 4 * s.cfg.xsel.pair.toNat + (n - 1) / 256)) 4 new)) ∧
    (¬ s.Fits n →
      exec (.xpair n p0 p1) s = .next (s.raises
        (BitVec.ofNat 8 (0xE0 + 4 * s.cfg.xsel.pair.toNat + (n - 1) / 256)) 4 .outputOverflow))) ∧
  (∀ (s : State) (c : Byte), s.AtControl c → s.cfg.xsel.wf = true → c ≠ 0xFF#8 → c.toNat / 32 = 7 →
    c.toNat / 4 % 8 = s.cfg.xsel.pair.toNat →
    (s.Has 4 →
      step s = exec (.xpair (c.toNat % 4 * 256 + (s.operand 0).toNat + 1)
        (s.operand 1) (s.operand 2)) s) ∧
    (¬ s.Has 4 → step s = .next (s.exhausts c)))

/-- XRCPY (44_extended R175). -/
def Obligations.XrcpyReadsWhatItAppends : Prop :=
  (∀ (s : State) (n : Nat) (b : Byte), 1 ≤ n → n ≤ 1024 →
    (b.toNat = 0 ∨ s.out.length < b.toNat →
      exec (.xrcpy n b) s = .next (s.raises
        (BitVec.ofNat 8 (0xE0 + 4 * s.cfg.xsel.rel.toNat + (n - 1) / 256)) 3
        .outOfRangeReference)) ∧
    (1 ≤ b.toNat → b.toNat ≤ s.out.length → ¬ s.Fits n →
      exec (.xrcpy n b) s = .next (s.raises
        (BitVec.ofNat 8 (0xE0 + 4 * s.cfg.xsel.rel.toNat + (n - 1) / 256)) 3 .outputOverflow)) ∧
    (1 ≤ b.toNat → b.toNat ≤ s.out.length → s.Fits n → ∃ new, new.length = n ∧
      (∀ k, k < n → new[k]? = (s.out ++ new.take k)[s.out.length - b.toNat + k]?) ∧
      exec (.xrcpy n b) s = .next (s.appends
        (BitVec.ofNat 8 (0xE0 + 4 * s.cfg.xsel.rel.toNat + (n - 1) / 256)) 3 new))) ∧
  (∀ (s : State) (c : Byte), s.AtControl c → s.cfg.xsel.wf = true → c ≠ 0xFF#8 → c.toNat / 32 = 7 →
    c.toNat / 4 % 8 = s.cfg.xsel.rel.toNat →
    (s.Has 3 →
      step s = exec (.xrcpy (c.toNat % 4 * 256 + (s.operand 0).toNat + 1) (s.operand 1)) s) ∧
    (¬ s.Has 3 → step s = .next (s.exhausts c)))

/-- XRSV (44_extended R176): MalformedOpcode, always, with the control byte alone consumed and whatever
follows it. -/
def Obligations.XrsvRaisesMalformedOpcode : Prop :=
  (∀ (s : State) (c : Byte), exec (.xrsv c) s = .next (s.raises c 1 .malformedOpcode)) ∧
  (∀ (s : State) (c : Byte), s.AtControl c → c.toNat / 32 = 7 → c ≠ 0xFF#8 →
    c.toNat / 4 % 8 ≠ s.cfg.xsel.literal.toNat → c.toNat / 4 % 8 ≠ s.cfg.xsel.fill.toNat →
    c.toNat / 4 % 8 ≠ s.cfg.xsel.pair.toNat → c.toNat / 4 % 8 ≠ s.cfg.xsel.rel.toNat →
    step s = .next (s.raises c 1 .malformedOpcode))

/-- END (40_dispatch_and_end R122). -/
def Obligations.EndWritesCompSize : Prop :=
  (∀ s : State, exec .endStream s = .next { s with
      opPos := s.srcPos, ctl := 0xFF, srcPos := s.srcPos + 1,
      compSize := s.srcPos, phase := .decoded }) ∧
  (∀ s : State, s.AtControl 0xFF → step s = exec .endStream s)

/-! ## Facts about the opcodes together -/

/-- The frame of every instruction (10_state R20, R27, 40 R120, R124, R127, 60 R228): when a meaning answers a
next state, the registers every opcode writes are OP_POS, CTL and SRC_POS, with the values given; SRC,
the palette, the render state, SRC_BASE and the parameters are unchanged; every byte of OUT outside the
run, which is stored from OUT_LEN on, reads as before; COMP_SIZE changes only in END; ERR and PHASE
change only in a fault entry or END. -/
def Obligations.InstructionFrame : Prop :=
  ∀ (i : Instr) (s t : State), exec i s = .next t →
    t.opPos = s.srcPos ∧ t.ctl = controlByte s.cfg.xsel i ∧ t.srcPos = s.srcPos + i.length ∧
    t.cfg = s.cfg ∧ t.src = s.src ∧ t.srcBase = s.srcBase ∧ t.palSel = s.palSel ∧
    t.palRam = s.palRam ∧ t.tileIdx = s.tileIdx ∧ t.tTiles = s.tTiles ∧ t.rasterH = s.rasterH ∧
    t.raster = s.raster ∧ t.inbox = s.inbox ∧ t.freeCount = s.freeCount ∧
    (i ≠ .endStream → t.compSize = s.compSize) ∧
    (t.phase ≠ .fault → t.err = s.err ∧ (i ≠ .endStream → t.phase = s.phase)) ∧
    (∀ a, a < s.outLen ∨ s.outLen + runLength i ≤ a → t.outRead a = s.outRead a)

/-- A completed opcode appends exactly its run, and a faulting one nothing (20_memory R65). -/
def Obligations.OpcodeIsAllOrNothing : Prop :=
  ∀ (i : Instr) (s t : State), s.phase = .decode → exec i s = .next t →
    (t.phase ≠ .fault → t.out.length = s.out.length + runLength i ∧
      ∀ a, a < s.out.length → t.outRead a = s.outRead a) ∧
    (t.phase = .fault → t.out = s.out)

/-- The closed form of a relative copy (43_relative_copy R162): byte k appended by RCPY or XRCPY is
OUT0[L0 - b + (k mod b)]. -/
def Obligations.RelativeCopyClosedForm : Prop :=
  ∀ (s t : State) (n : Nat) (b : Byte), 1 ≤ b.toNat → b.toNat ≤ s.out.length → s.Fits n →
    exec (.rcpy n b) s = .next t ∨ exec (.xrcpy n b) s = .next t →
    ∀ k, k < n →
      t.outRead (s.out.length + k) = s.outRead (s.out.length - b.toNat + k % b.toNat) ∧
      (t.outRead (s.out.length + k)).isSome = true

/-- An absolute copy never overlaps what it appends (42_absolute_copy R153): what ACPY and AINV append is what
a byte-by-byte copy would append, each byte read from OUT as it has grown so far. -/
def Obligations.AbsoluteCopyNeverOverlaps : Prop :=
  ∀ (s t : State) (n : Nat) (o : Half), o.toNat + n ≤ s.out.length → s.Fits n →
    (exec (.acpy n o) s = .next t → ∀ k, k < n →
      t.outRead (s.out.length + k) = (t.out.take (s.out.length + k))[o.toNat + k]? ∧
      (t.outRead (s.out.length + k)).isSome = true) ∧
    (exec (.ainv n o) s = .next t → ∀ k, k < n →
      t.outRead (s.out.length + k)
        = ((t.out.take (s.out.length + k))[o.toNat + k]?).map fun v => v ^^^ 0xFF#8)

/-- The short and the extended form of an operation have the same effect on OUT (44_extended R177), in
completion and in fault, and the extended form is one byte longer. -/
def Obligations.ShortAndExtendedFormsAgree : Prop :=
  ∀ (s : State) (n : Nat) (d : List Byte) (v p0 p1 b : Byte) (j k : Instr),
    (j = .lit d ∧ k = .xlit d) ∨ (j = .fill n v ∧ k = .xfill n v) ∨
      (j = .pair n p0 p1 ∧ k = .xpair n p0 p1) ∨ (j = .rcpy n b ∧ k = .xrcpy n b) →
    ∃ t u, exec j s = .next t ∧ exec k s = .next u ∧ u.out = t.out ∧ u.phase = t.phase ∧
      u.err = t.err ∧ u.srcPos = t.srcPos + 1 ∧ u.opPos = t.opPos

/-- With OUT empty every copy of at least one byte faults with OutOfRangeReference (70 R263). -/
def Obligations.CopyAsFirstOpcodeFaults : Prop :=
  ∀ (s : State) (n : Nat) (o : Half) (b : Byte) (i : Instr), s.out = [] → 1 ≤ n →
    i = .acpy n o ∨ i = .ainv n o ∨ i = .rcpy n b ∨ i = .xrcpy n b →
    ∃ t, exec i s = .next t ∧ t.phase = .fault ∧ t.err = .outOfRangeReference ∧ t.out = []

/-- Every producing opcode in range and within capacity completes with the bytes its rule gives, all
others fault: the meanings agree with the pure function `produced` (41 to 44), of which the relative
copies are the closed form. -/
def Obligations.MeaningAppendsWhatIsProduced : Prop :=
  ∀ (i : Instr) (s : State), i ≠ .endStream →
    (∀ new, produced s.out i = some new → s.Fits new.length →
      exec i s = .next (s.appends (controlByte s.cfg.xsel i) i.length new)) ∧
    (∀ new, produced s.out i = some new → ¬ s.Fits new.length →
      exec i s = .next (s.raises (controlByte s.cfg.xsel i) i.length .outputOverflow)) ∧
    (produced s.out i = none → ∃ e, (e = .malformedOpcode ∨ e = .outOfRangeReference) ∧
      exec i s = .next (s.raises (controlByte s.cfg.xsel i) i.length e))

/-! ## Faults -/

/-- Fault entry (60_exceptions R228): a step of DEC, or a RENDER command, that ends in FAULT has written
ERR and PHASE, and for DEC the diagnostics OP_POS, CTL and SRC_POS, and nothing else: OUT is as at the
start of the step. -/
def Obligations.FaultEntryIsTheWholeEffect : Prop :=
  (∀ s t : State, s.phase = .decode → s.inbox = [] → step s = .next t → t.phase = .fault →
    t = { s with opPos := s.srcPos, ctl := t.ctl, srcPos := t.srcPos, err := t.err, phase := .fault } ∧
      t.err ≠ .none ∧ s.srcPos ≤ t.srcPos ∧
      (s.cfg.srcSize ≤ s.srcBase + s.srcPos → t.ctl = s.ctl ∧ t.srcPos = s.srcPos) ∧
      (s.srcBase + s.srcPos < s.cfg.srcSize → t.ctl = s.srcByte (s.srcBase + s.srcPos))) ∧
  (∀ s t : State, s.phase = .decoded → hostMove (.cmd 2) s = .next t → t.phase = .fault →
    t = { s with err := t.err, phase := .fault } ∧ t.err ≠ .none)

/-- The order of the checks inside one step (60_exceptions R230): control fetch, selector, operand fetches,
range, capacity; and at render start ConfigurationError before RasterRange. -/
def Obligations.FaultPriority : Prop :=
  (∀ s : State, s.phase = .decode → s.inbox = [] → ∃ t, step s = .next t ∧
    (s.cfg.srcSize ≤ s.srcBase + s.srcPos → t.err = .sourceExhausted) ∧
    (∀ c, s.AtControl c → reservedControl s.cfg.xsel c = true → t.err = .malformedOpcode) ∧
    (∀ c, s.AtControl c → s.fetch = .error (.missingOperands c) → t.err = .sourceExhausted) ∧
    (∀ i, s.fetch = .ok i → i ≠ .endStream → (∀ c, i ≠ .xrsv c) → produced s.out i = none →
      t.err = .outOfRangeReference) ∧
    (∀ i new, s.fetch = .ok i → produced s.out i = some new → ¬ s.Fits new.length →
      t.err = .outputOverflow)) ∧
  (∀ s : State, s.phase = .decoded → ∃ t, hostMove (.cmd 2) s = .next t ∧
    (s.palSel = true → s.palRam.length < 16 → t.err = .configurationError) ∧
    (¬ (s.palSel = true ∧ s.palRam.length < 16) → s.out.length / 32 % 16 ≠ 0 →
      t.err = .rasterRange))

/-- FAULT is left by a reset and by nothing else (60_exceptions R231): any other step from FAULT, whatever the
host does, leaves the whole state as it was but for the turn it takes from the inbox. -/
def Obligations.FaultIsLeftOnlyByReset : Prop :=
  ∀ s t : State, s.phase = .fault → step s = .next t →
    (t = { s with inbox := s.inbox.tail }) ∨
    ((s.inbox.head? = some (some .hardReset) ∨ s.inbox.head? = some (some (.cmd 3))) ∧
      t.phase = .idle ∧ t.err = .none ∧ t.out = [] ∧ t.opPos = 0 ∧ t.srcPos = 0 ∧ t.ctl = 0)

/-! ## TEX and PAL -/

/-- TILEX (45_tile_expander R185): the index of lane (y, x) is the exact weighted sum of bit 7 - x of the
four plane bytes of row y, and TILEX gives the eight rows of eight such indices. -/
def Obligations.TilexCombinesFourPlanes : Prop :=
  (∀ (t : Tile) (y x : Fin 8), (tilePixel t y x).toNat =
      (t[2 * y.val].toNat / 2 ^ (7 - x.val)) % 2
      + 2 * ((t[2 * y.val + 1].toNat / 2 ^ (7 - x.val)) % 2)
      + 4 * ((t[2 * y.val + 16].toNat / 2 ^ (7 - x.val)) % 2)
      + 8 * ((t[2 * y.val + 17].toNat / 2 ^ (7 - x.val)) % 2)) ∧
  (∀ (t : Tile) (y x : Fin 8),
    ((tilex t)[y.val]?.bind fun row => row[x.val]?) = some (tilePixel t y x)) ∧
  (∀ t : Tile, (tilex t).length = 8 ∧ ∀ row ∈ tilex t, row.length = 8)

/-- The map from tile records to index grids is a bijection (45_tile_expander R189). -/
def Obligations.TilexIsABijection : Prop :=
  Function.Bijective fun (t : Tile) (y x : Fin 8) => tilePixel t y x

/-- The tile fetch (45_tile_expander R187, 47 R216): for every i below floor(OUT_LEN / 32) record i exists, is
bytes 32 i to 32 i + 31 of OUT, and does not depend on what follows it; at and above it there is none. -/
def Obligations.TileRecordIsThirtyTwoBytes : Prop :=
  (∀ (out : List Byte) (i : Nat), i < out.length / 32 → ∃ t, tileRecord out i = some t ∧
    ∀ (j : Nat) (h : j < 32), out[32 * i + j]? = some t[j]) ∧
  (∀ (out : List Byte) (i : Nat), out.length / 32 ≤ i → tileRecord out i = none) ∧
  (∀ (out tail : List Byte) (i : Nat), i < out.length / 32 →
    tileRecord (out ++ tail) i = tileRecord out i)

/-- The grey ramp (46_palette_mapper R196): 17 p on the three channels, exactly. -/
def Obligations.PaletteRomIsTheGreyRamp : Prop :=
  ∀ p : PixelIndex, (palRom p).r.toNat = 17 * p.toNat ∧ (palRom p).g.toNat = 17 * p.toNat ∧
    (palRom p).b.toNat = 17 * p.toNat ∧ (palRom p).r = p ++ p

/-- PALCONV (46_palette_mapper R197): three 5-bit fields, red lowest, each times 8, bit 15 ignored. -/
def Obligations.PaletteConversion : Prop :=
  ∀ w : Half, (palConv w).r.toNat = 8 * (w.toNat % 32) ∧
    (palConv w).g.toNat = 8 * (w.toNat / 32 % 32) ∧
    (palConv w).b.toNat = 8 * (w.toNat / 1024 % 32) ∧ palConv (w ^^^ 0x8000#16) = palConv w

/-- PALMAP (46_palette_mapper R195): the ROM in ROM mode, whatever has been pushed; in RAM mode the converted
word that was pushed for the index. -/
def Obligations.PaletteMapFollowsPalSel : Prop :=
  (∀ (s : State) (p : PixelIndex), s.palSel = false → s.palMap p = palRom p) ∧
  (∀ (s : State) (p : PixelIndex) (w : Half), s.palSel = true → s.palRam[p.toNat]? = some w →
    s.palMap p = palConv w)

/-! ## Render start, REN and RASTER -/

/-- Render start (47_image_composer R211): the two checks in order, each faulting with nothing latched, and
otherwise the latches, an unwritten RASTER, TILE_IDX 0 and phase RENDER. -/
def Obligations.RenderStartChecksThenLatches : Prop :=
  ∀ s : State, s.phase = .decoded →
    (s.palSel = true ∧ s.palRam.length < 16 →
      hostMove (.cmd 2) s = .next { s with err := .configurationError, phase := .fault }) ∧
    (¬ (s.palSel = true ∧ s.palRam.length < 16) → s.out.length / 32 % 16 ≠ 0 →
      hostMove (.cmd 2) s = .next { s with err := .rasterRange, phase := .fault }) ∧
    (¬ (s.palSel = true ∧ s.palRam.length < 16) → s.out.length / 32 % 16 = 0 →
      hostMove (.cmd 2) s = .next { s with
        tTiles := s.out.length / 32, rasterH := s.out.length / 64, raster := [],
        tileIdx := 0, phase := .render })

/-- One step of REN (47_image_composer R212, R214): with all tiles rendered, phase RENDERED and nothing else;
otherwise tile TILE_IDX is composed, each of its 64 pixels at its place in its colour, every other
pixel and everything else as before, and TILE_IDX grows by one. -/
def Obligations.RenderStepComposesOneTile : Prop :=
  (∀ s : State, s.phase = .render → s.inbox = [] → s.tileIdx = s.tTiles →
    step s = .next { s with phase := .rendered }) ∧
  (∀ (s : State) (t : Tile), s.phase = .render → s.inbox = [] → s.tileIdx ≠ s.tTiles →
    tileRecord s.out s.tileIdx = some t → s.tileIdx / 16 * 8 + 7 < s.rasterH →
    ∃ r, step s = .next { s with raster := r, tileIdx := s.tileIdx + 1 } ∧
      (∀ y x : Fin 8,
        Cells.read r (pixelKey (s.tileIdx % 16 * 8 + x.val) (s.tileIdx / 16 * 8 + y.val))
          = some (s.palMap (tilePixel t y x))) ∧
      (∀ px py, px < 128 → tileAt px py ≠ s.tileIdx →
        Cells.read r (pixelKey px py) = Cells.read s.raster (pixelKey px py)))

/-- A whole render (47_image_composer R212, R215): from DECODED, a RENDER command whose checks pass, and then
the T_TILES + 1 steps of REN, end in RENDERED with OUT as it was and every pixel of the 128 × RASTER_H
raster holding the colour of its four plane bits. -/
def Obligations.RenderRunProducesTheRaster : Prop :=
  ∀ s : State, s.phase = .decoded → s.inbox = [some (.cmd 2)] →
    ¬ (s.palSel = true ∧ s.palRam.length < 16) → s.out.length / 32 % 16 = 0 →
    ∃ t, core.run (s.out.length / 32 + 2) s = .next t ∧ t.phase = .rendered ∧ t.out = s.out ∧
      t.rasterH = s.out.length / 64 ∧ t.tileIdx = s.out.length / 32 ∧ t.compSize = s.compSize ∧
      ∀ px py, px < 128 → py < t.rasterH →
        t.hostReadRaster px py = some (s.palMap (BitVec.ofNat 4 (indexAt s.out px py)))

/-- Tiles may be rendered in any order (20_memory R78): composing two different tiles in either order gives
the same RASTER, as the same data. -/
def Obligations.TilesMayBeRenderedInAnyOrder : Prop :=
  ∀ (s : State) (m : RasterMem) (i j : Nat) (t u : Tile), i ≠ j → Cells.wf m = true →
    Cells.writeAll (Cells.writeAll m (tileWrites s i t)) (tileWrites s j u)
      = Cells.writeAll (Cells.writeAll m (tileWrites s j u)) (tileWrites s i t)

/-! ## The host, reset and the whole machine -/

/-- CMD (10_state R32): START in IDLE, RENDER in DECODED, RESET in IDLE, DECODED, RENDERED and FAULT; every
other write has no effect at all. -/
def Obligations.CommandsInTheirPhases : Prop :=
  ∀ (s : State) (v : Nat),
    (v = 1 → s.phase = .idle → hostMove (.cmd v) s = .next { s with phase := .decode }) ∧
    (v = 2 → s.phase = .decoded → hostMove (.cmd v) s = .next (renderStart s)) ∧
    (v = 3 → s.phase = .idle ∨ s.phase = .decoded ∨ s.phase = .rendered ∨ s.phase = .fault →
      hostMove (.cmd v) s = hostMove .hardReset s) ∧
    (v = 0 ∨ 3 < v ∨ s.phase = .decode ∨ s.phase = .render ∨ (v = 1 ∧ s.phase ≠ .idle) ∨
        (v = 2 ∧ s.phase ≠ .decoded) →
      hostMove (.cmd v) s = .next s)

/-- Reset (70_reset_and_hazards R250, 10_state R45): from every state the reset input gives every register its
reset value, empties OUT, PAL_RAM and RASTER, and leaves SRC and the parameters; the RESET command does
the same in the phases that accept it and nothing in DECODE and RENDER. -/
def Obligations.ResetGivesTheResetState : Prop :=
  (∀ s : State, hostMove .hardReset s = .next
    { cfg := s.cfg, src := s.src, srcBase := 0, srcPos := 0, opPos := 0, ctl := 0, out := [],
      compSize := 0, phase := .idle, err := .none, palSel := false, palRam := [], tileIdx := 0,
      tTiles := 0, rasterH := 0, raster := [], inbox := s.inbox, freeCount := s.freeCount }) ∧
  (∀ s : State, s.phase ≠ .decode → s.phase ≠ .render →
    hostMove (.cmd 3) s = hostMove .hardReset s) ∧
  (∀ s : State, s.phase = .decode ∨ s.phase = .render → hostMove (.cmd 3) s = .next s)

/-- PAL_PUSH (10_state R40): in IDLE the word becomes entry PAL_COUNT and PAL_COUNT grows by one, until there
are sixteen; a push then, or in any other phase, is ignored; the words of a byte sequence are
little-endian and a trailing odd byte forms none. -/
def Obligations.PalettePushFillsSixteenEntries : Prop :=
  (∀ (s : State) (w : Half), s.phase = .idle → s.palCount < 16 →
    ∃ t, hostMove (.palPush w) s = .next t ∧ t.palCount = s.palCount + 1 ∧
      t.palWord s.palCount = w ∧ (∀ k, k < s.palCount → t.palWord k = s.palWord k) ∧
      t = { s with palRam := t.palRam }) ∧
  (∀ (s : State) (w : Half), s.phase ≠ .idle ∨ 16 ≤ s.palCount →
    hostMove (.palPush w) s = .next s) ∧
  (∀ bs : List Byte, (paletteWords bs).length = bs.length / 2 ∧
    ∀ (k : Nat) (h : k < bs.length / 2), ((paletteWords bs)[k]?).map BitVec.toNat
      = some ((bs[2 * k]'(by omega)).toNat + 256 * (bs[2 * k + 1]'(by omega)).toNat))

/-- Host writes (10_state R23, R33, R37, R46, 20_memory R76): in IDLE SRC_BASE, PAL_SEL (bit 0 of the value) and
the bytes of SRC are written, and nothing else; of an SRC_BASE that a finite POS_W does not hold, some
value of POS_W bits is kept (a free value, assumption log, entry 18); outside IDLE the register writes are ignored and a
write of SRC is no move the host has (assumption log, entries 11 and 12). -/
def Obligations.HostWritesOnlyInIdle : Prop :=
  (∀ (s : State) (v : Nat), s.phase = .idle → (∀ w, s.cfg.posW = some w → v < 2 ^ w) →
    hostMove (.setSrcBase v) s = .next { s with srcBase := v }) ∧
  (∀ (s : State) (v w : Nat), s.phase = .idle → s.cfg.posW = some w → 2 ^ w ≤ v →
    ∃ b, b < 2 ^ w ∧ hostMove (.setSrcBase v) s
      = .next { s with srcBase := b, freeCount := s.freeCount + 1 }) ∧
  (∀ (s : State) (v : Nat), s.phase = .idle →
    hostMove (.setPalSel v) s = .next { s with palSel := decide (v % 2 = 1) }) ∧
  (∀ (s : State) (a : Nat) (v : Byte), s.phase = .idle → s.cfg.srcSize ≤ a →
    hostMove (.writeSrc a v) s = .refused .srcAddressAbsent) ∧
  (∀ (s : State) (a : Nat) (v : Byte), s.phase = .idle → a < s.cfg.srcSize →
    ∃ t, hostMove (.writeSrc a v) s = .next t ∧ t = { s with src := t.src } ∧
      t.hostReadSrc a = some v ∧
      ∀ a', a' ≠ a → t.hostReadSrc a' = s.hostReadSrc a') ∧
  (∀ (s : State) (v a : Nat) (w : Half) (b : Byte), s.phase ≠ .idle →
    hostMove (.setSrcBase v) s = .next s ∧ hostMove (.setPalSel v) s = .next s ∧
    hostMove (.palPush w) s = .next s ∧
    hostMove (.writeSrc a b) s = .refused .srcWriteOutsideIdle)

/-- Host reads (10_state R30, R31, R33, R38, R43, R46, 20_memory R60, 60_exceptions R223, R235, 70 R262): what each
numbered register answers, in every phase, CMD and PAL_PUSH being write-only; and what OUT, its last
sixteen bytes, SRC, PAL_RAM and RASTER answer in the phases that grant the read, in the others nothing.
That SRC can be read in each phase in which neither DEC nor REN is enabled is a reading of the spec
(assumption log, entry 12). -/
def Obligations.HostReadsByPhase : Prop :=
  (∀ s : State,
    s.hostReadReg .cmd = none ∧ s.hostReadReg .palPush = none ∧
    s.hostReadReg .phase = some (match s.phase with
      | .idle => 0 | .decode => 1 | .decoded => 2 | .render => 3 | .rendered => 4 | .fault => 5) ∧
    s.hostReadReg .err = some (match s.err with
      | .none => 0 | .sourceExhausted => 1 | .malformedOpcode => 2 | .outOfRangeReference => 3
      | .configurationError => 4 | .outputOverflow => 5 | .rasterRange => 6 | .formatViolation => 7) ∧
    s.hostReadReg .srcBase = some s.srcBase ∧ s.hostReadReg .srcPos = some s.srcPos ∧
    s.hostReadReg .opPos = some s.opPos ∧ s.hostReadReg .ctl = some s.ctl.toNat ∧
    s.hostReadReg .outLen = some s.out.length ∧ s.hostReadReg .compSize = some s.compSize ∧
    s.hostReadReg .palSel = some (if s.palSel = true then 1 else 0) ∧
    s.hostReadReg .palCount = some s.palRam.length ∧ s.hostReadReg .tileIdx = some s.tileIdx ∧
    s.hostReadReg .tTiles = some s.tTiles ∧ s.hostReadReg .rasterH = some s.rasterH) ∧
  (∀ s : State, s.phase = .idle ∨ s.phase = .decoded ∨ s.phase = .rendered ∨ s.phase = .fault →
    (∀ i, s.hostReadOut i = s.out[i]?) ∧
    (∃ bs, s.lastOutput = some bs ∧ bs.length = min 16 s.out.length ∧ bs <:+ s.out) ∧
    (∀ a, a < s.cfg.srcSize → s.hostReadSrc a = some (s.srcByte a)) ∧
    (∀ a, s.cfg.srcSize ≤ a → s.hostReadSrc a = none) ∧
    (∀ i w, i < 16 → s.palRam[i]? = some w → s.hostReadPalRam i = some w) ∧
    (∀ i, i < 16 → (s.hostReadPalRam i).isSome = true) ∧ (∀ i, 16 ≤ i → s.hostReadPalRam i = none)) ∧
  (∀ (s : State) (k : Nat), s.phase = .decode ∨ s.phase = .render →
    s.hostReadOut k = none ∧ s.lastOutput = none ∧ s.hostReadSrc k = none ∧ s.hostReadPalRam k = none) ∧
  (∀ (s : State) (x y : Nat), s.phase = .rendered → x < 128 → y < s.rasterH →
    s.hostReadRaster x y = Cells.read s.raster (128 * y + x)) ∧
  (∀ (s : State) (x y : Nat), s.phase ≠ .rendered ∨ 128 ≤ x ∨ s.rasterH ≤ y →
    s.hostReadRaster x y = none)

/-- The transitions of PHASE (10_state R30), with their causes; there are no others. -/
def Obligations.PhaseTransitions : Prop :=
  ∀ s t : State, step s = .next t →
    t.phase = s.phase ∨
    (s.phase = .idle ∧ t.phase = .decode ∧ s.inbox.head? = some (some (.cmd 1))) ∨
    (s.phase = .decode ∧ t.phase = .decoded ∧ s.fetch = .ok .endStream ∧
      (s.inbox = [] ∨ s.inbox.head? = some none)) ∨
    (s.phase = .decode ∧ t.phase = .fault ∧ s.fetch ≠ .ok .endStream ∧
      (s.inbox = [] ∨ s.inbox.head? = some none)) ∨
    (s.phase = .decoded ∧ (t.phase = .render ∨ t.phase = .fault) ∧
      s.inbox.head? = some (some (.cmd 2))) ∨
    (s.phase = .render ∧ t.phase = .rendered ∧ s.tileIdx = s.tTiles ∧
      (s.inbox = [] ∨ s.inbox.head? = some none)) ∨
    (t.phase = .idle ∧ (s.inbox.head? = some (some .hardReset) ∨
      (s.inbox.head? = some (some (.cmd 3)) ∧ s.phase ≠ .decode ∧ s.phase ≠ .render)))

/-- ERR (10_state R31): it is 0 if and only if PHASE is not FAULT, every step keeps that, code 7 is never
written, and a step that changes ERR enters FAULT or is a reset. -/
def Obligations.ErrIsWrittenByFaultEntryOnly : Prop :=
  ∀ s t : State, (s.err ≠ .none ↔ s.phase = .fault) → step s = .next t →
    (t.err ≠ .none ↔ t.phase = .fault) ∧
    (t.err = .formatViolation → s.err = .formatViolation) ∧
    (t.err = s.err ∨ (s.phase ≠ .fault ∧ t.phase = .fault) ∨ (t.phase = .idle ∧ t.err = .none))

/-- OUT is append-only (10_state R27, 20_memory R67): a step that is no reset leaves every byte of OUT where
it is, and only a step of DEC makes OUT longer. -/
def Obligations.OutIsAppendOnly : Prop :=
  ∀ s t : State, step s = .next t →
    (s.out <+: t.out ∧ (s.out ≠ t.out → s.phase = .decode)) ∨
    (t.phase = .idle ∧ t.out = [] ∧
      (s.inbox.head? = some (some .hardReset) ∨ s.inbox.head? = some (some (.cmd 3))))

/-- No stream can modify itself, and the palette is fixed during a run (20_memory R76, 46 R201): the parameters
change in no step; SRC only in a host write of SRC in IDLE; SRC_BASE and the palette only in a host
move in IDLE or in a reset. -/
def Obligations.LaunchDataIsWrittenByTheHostInIdle : Prop :=
  ∀ s t : State, step s = .next t → t.cfg = s.cfg ∧
    (t.src = s.src ∨ (s.phase = .idle ∧ ∃ a v, s.inbox.head? = some (some (.writeSrc a v)) ∧
      a < s.cfg.srcSize ∧ t.src = Cells.write s.src a v)) ∧
    ((t.srcBase = s.srcBase ∧ t.palSel = s.palSel ∧ t.palRam = s.palRam) ∨
      (s.phase = .idle ∧ ∃ m, s.inbox.head? = some (some m)) ∨
      (t.phase = .idle ∧
        (s.inbox.head? = some (some .hardReset) ∨ s.inbox.head? = some (some (.cmd 3)))))

/-- The invariant holds right after reset, whatever the parameters, the turns to come and the count of free
values taken. -/
def Obligations.ResetMeetsInv : Prop :=
  Inv State.reset ∧ ∀ (c : Config) (turns : List (Option HostMove)) (k : Nat),
    Inv { State.reset with cfg := c, inbox := turns, freeCount := k }

/-- Every step keeps the invariant, whatever the host does (10_state R22, R24, R25, R27, R28, R31, R39, R41 to
R43, R46, R47). -/
def Obligations.EveryStepKeepsInv : Prop :=
  ∀ s t : State, Inv s → step s = .next t → Inv t

/-- No step from a state that meets the invariant stops with a fault (40 R125, 47 R212): DEC and REN always
have a step, and what is refused is only a host write of SRC outside IDLE or, in IDLE, past SRC_SIZE, a
move the host does not have (assumption log, entry 11). -/
def Obligations.NoStepStopsTheMachine : Prop :=
  ∀ s : State, Inv s →
    (∃ t, step s = .next t) ∨
    (∃ m r, s.inbox.head? = some (some m) ∧ step s = .refused r ∧
      ∃ a v, m = .writeSrc a v ∧
        ((r = .srcWriteOutsideIdle ∧ s.phase ≠ .idle) ∨
         (r = .srcAddressAbsent ∧ s.phase = .idle ∧ s.cfg.srcSize ≤ a)))

/-- No position wraps (00_scope R7, 92 D4): with a finite POS_W that the parameters admit, every position
register of a state that meets the invariant is below 2^POS_W. -/
def Obligations.NoPositionWraps : Prop :=
  ∀ (s : State) (w : Nat), Inv s → s.cfg.wf = true → s.cfg.posW = some w →
    s.srcBase < 2 ^ w ∧ s.srcPos < 2 ^ w ∧ s.opPos < 2 ^ w ∧ s.outLen < 2 ^ w ∧
    s.compSize < 2 ^ w ∧ s.tileIdx < 2 ^ w ∧ s.tTiles < 2 ^ w ∧ s.rasterH < 2 ^ w

/-- The decode ends (40_dispatch_and_end R125): left alone, DEC reaches DECODED or FAULT within
max(0, SRC_SIZE - SRC_BASE - SRC_POS) + 1 steps, and each step before that consumes at least a byte. -/
def Obligations.DecodeEnds : Prop :=
  ∀ s : State, s.phase = .decode → s.inbox = [] →
    ∃ k t, k ≤ s.cfg.srcSize - (s.srcBase + s.srcPos) + 1 ∧ core.run k s = .next t ∧
      (t.phase = .decoded ∨ t.phase = .fault) ∧
      ∀ j u v, core.run j s = .next u → u.phase = .decode → step u = .next v →
        v.phase = .fault ∨ u.srcPos < v.srcPos

/-- The result of a decode depends only on the stream (40_dispatch_and_end R128): two machines whose remaining
streams hold the same bytes, with the same XSEL, OUT_CAP and OUT, wherever in SRC the streams lie and
whatever palette they hold, run in step: same phase, fault, OUT, positions and control byte. -/
def Obligations.DecodeDependsOnTheStreamOnly : Prop :=
  ∀ s u : State, s.phase = .decode → u.phase = .decode → s.inbox = [] → u.inbox = [] →
    s.cfg.xsel = u.cfg.xsel → s.cfg.outCap = u.cfg.outCap →
    s.out = u.out → s.srcPos = u.srcPos → s.ctl = u.ctl → s.opPos = u.opPos →
    s.compSize = u.compSize → s.err = u.err →
    s.cfg.srcSize - s.srcBase = u.cfg.srcSize - u.srcBase →
    (∀ k, s.srcPos ≤ k → k < s.cfg.srcSize - s.srcBase →
      s.srcByte (s.srcBase + k) = u.srcByte (u.srcBase + k)) →
    ∀ n, ∃ t v, core.run n s = .next t ∧ core.run n u = .next v ∧ t.phase = v.phase ∧
      t.err = v.err ∧ t.out = v.out ∧ t.srcPos = v.srcPos ∧ t.opPos = v.opPos ∧ t.ctl = v.ctl ∧
      t.compSize = v.compSize

/-- A stream of opcodes decodes to what they produce (40_dispatch_and_end R120, R128): where SRC holds the
encodings of producing opcodes, each in range and within OUT_CAP, and then the sentinel, DEC runs one
opcode a step and ends in DECODED with exactly those bytes appended and COMP_SIZE the position of the
sentinel, relative to SRC_BASE. -/
def Obligations.EncodedStreamDecodesToItsBytes : Prop :=
  ∀ (s : State) (is : List Instr) (out : List Byte), s.phase = .decode → s.inbox = [] →
    s.cfg.xsel.wf = true → (∀ i ∈ is, i.wf s.cfg.xsel = true) →
    s.Has ((is.flatMap (encode s.cfg.xsel)).length + 1) →
    s.srcBytes s.srcAddr ((is.flatMap (encode s.cfg.xsel)).length + 1)
      = is.flatMap (encode s.cfg.xsel) ++ [0xFF#8] →
    producedAll s.cfg is s.out = some out →
    ∃ t, core.run (is.length + 1) s = .next t ∧ t.phase = .decoded ∧ t.out = out ∧
      t.err = s.err ∧ t.compSize = s.srcPos + (is.flatMap (encode s.cfg.xsel)).length ∧
      t.srcPos = t.compSize + 1
end

