-- ==== Sys2Proof/Laws/Decode.lean ====
section
/-! SUPPORT. The laws of the fields, the encoder and the decoder that later proofs cite. -/

namespace Sys2Proof

theorem length_operandBytes (i : Instr) : (operandBytes i).length + 1 = i.length := by
  cases i <;> simp [operandBytes, Instr.length] <;> omega

theorem Instr.length_pos (i : Instr) : 1 ≤ i.length := by
  have := length_operandBytes i
  omega

theorem family_toNat (c : Byte) : (family c).toNat = c.toNat / 32 := by
  have := c.isLt
  simp [family, BitVec.extractLsb'_toNat, Nat.shiftRight_eq_div_pow]
  omega

theorem selector_toNat (c : Byte) : (selector c).toNat = c.toNat / 4 % 8 := by
  simp [selector, BitVec.extractLsb'_toNat, Nat.shiftRight_eq_div_pow]

theorem shortCount_eq (c : Byte) : shortCount c = c.toNat % 32 + 1 := by
  simp [shortCount, BitVec.extractLsb'_toNat]

theorem extCount_eq (c k : Byte) : extCount c k = 256 * (c.toNat % 4) + k.toNat + 1 := by
  simp [extCount, BitVec.extractLsb'_toNat]

theorem extCount_le (c k : Byte) : extCount c k ≤ 1024 := by
  have := k.isLt
  rw [extCount_eq]
  omega

theorem shortCount_le (c : Byte) : shortCount c ≤ 32 := by
  rw [shortCount_eq]
  omega

theorem takeBytes_eq_some {n : Nat} {bs d : List Byte} :
    takeBytes n bs = some d ↔ n ≤ bs.length ∧ d = bs.take n := by
  simp only [takeBytes, List.length_take]
  by_cases h : n ≤ bs.length
  · simp [h, eq_comm]
  · simp [h, show ¬ min n bs.length = n by omega]

theorem takeBytes_eq_none {n : Nat} {bs : List Byte} : takeBytes n bs = none ↔ bs.length < n := by
  simp only [takeBytes, List.length_take]
  by_cases h : n ≤ bs.length
  · simp [h]
  · simp [show ¬ min n bs.length = n by omega, show bs.length < n by omega]

@[simp] theorem decode_nil (x : XSel) : decode x [] = .error .noControlByte := rfl

theorem decode_cons (x : XSel) (c : Byte) (bs : List Byte) :
    decode x (c :: bs) = match readOperands c bs (formOf x c) with
      | some i => .ok i
      | none => .error (.missingOperands c) := rfl

end Sys2Proof
end

