-- ==== Sys2Proof/Laws/Memory.lean ====
section
/-! SUPPORT. The laws of the sparse memories: read after write, canonical form and bounds kept by every
operation, and equality of canonical memories that read the same. -/

namespace Sys2Proof.Machine

variable {α : Type}

@[simp] theorem Cells.read_nil (a : Nat) : Cells.read ([] : List (Nat × α)) a = none := rfl

@[simp] theorem Cells.wf_nil : Cells.wf ([] : List (Nat × α)) = true := rfl

@[simp] theorem Cells.below_nil (n : Nat) : Cells.below n ([] : List (Nat × α)) = true := rfl

theorem Cells.read_cons (b : Nat) (w : α) (m : List (Nat × α)) (a : Nat) :
    Cells.read ((b, w) :: m) a = if a = b then some w else Cells.read m a := rfl

/-! ### One write -/

theorem Cells.read_write (m : List (Nat × α)) (a : Nat) (v : α) (a' : Nat) :
    Cells.read (Cells.write m a v) a' = if a' = a then some v else Cells.read m a' := by
  induction m with
  | nil => simp [Cells.write, Cells.read_cons]
  | cons c m ih =>
    obtain ⟨b, w⟩ := c
    simp only [Cells.write]
    split
    · simp [Cells.read_cons]
    · split
      · subst_vars
        simp only [Cells.read_cons]
        split <;> simp_all
      · simp only [Cells.read_cons, ih]
        split <;> split <;> simp_all

@[simp] theorem Cells.read_write_same (m : List (Nat × α)) (a : Nat) (v : α) :
    Cells.read (Cells.write m a v) a = some v := by simp [Cells.read_write]

theorem Cells.read_write_other (m : List (Nat × α)) (a a' : Nat) (v : α) (h : a' ≠ a) :
    Cells.read (Cells.write m a v) a' = Cells.read m a' := by simp [Cells.read_write, h]

theorem Cells.risingFrom_mono {m : List (Nat × α)} {lo lo' : Nat} (h : lo' ≤ lo)
    (hm : Cells.risingFrom lo m = true) : Cells.risingFrom lo' m = true := by
  cases m with
  | nil => rfl
  | cons c m =>
    simp only [Cells.risingFrom, Bool.and_eq_true, decide_eq_true_eq] at hm ⊢
    exact ⟨by omega, hm.2⟩

theorem Cells.risingFrom_write (m : List (Nat × α)) (lo a : Nat) (v : α) (ha : lo ≤ a)
    (hm : Cells.risingFrom lo m = true) : Cells.risingFrom lo (Cells.write m a v) = true := by
  induction m generalizing lo with
  | nil => simp [Cells.write, Cells.risingFrom, ha]
  | cons c m ih =>
    obtain ⟨b, w⟩ := c
    simp only [Cells.risingFrom, Bool.and_eq_true, decide_eq_true_eq] at hm
    simp only [Cells.write]
    split
    · simp only [Cells.risingFrom, Bool.and_eq_true, decide_eq_true_eq]
      exact ⟨ha, by omega, hm.2⟩
    · split
      · subst_vars
        simpa [Cells.risingFrom] using hm
      · simp only [Cells.risingFrom, Bool.and_eq_true, decide_eq_true_eq]
        exact ⟨hm.1, ih _ (by omega) hm.2⟩

/-- A write keeps the canonical form. -/
theorem Cells.wf_write {m : List (Nat × α)} (a : Nat) (v : α) (hm : Cells.wf m = true) :
    Cells.wf (Cells.write m a v) = true := Cells.risingFrom_write m 0 a v (Nat.zero_le _) hm

theorem Cells.below_cons (n b : Nat) (w : α) (m : List (Nat × α)) :
    Cells.below n ((b, w) :: m) = (decide (b < n) && Cells.below n m) := rfl

theorem Cells.below_write {m : List (Nat × α)} {n a : Nat} (v : α) (ha : a < n)
    (hm : Cells.below n m = true) : Cells.below n (Cells.write m a v) = true := by
  induction m with
  | nil => simp [Cells.write, Cells.below_cons, ha]
  | cons c m ih =>
    obtain ⟨b, w⟩ := c
    simp only [Cells.below_cons, Bool.and_eq_true, decide_eq_true_eq] at hm
    simp only [Cells.write]
    split
    · simp [Cells.below_cons, ha, hm.1, hm.2]
    · split <;> simp [Cells.below_cons, ha, hm.1, hm.2, ih]

/-! ### Many writes -/

@[simp] theorem Cells.writeAll_nil (m : List (Nat × α)) : Cells.writeAll m [] = m := by
  cases m <;> rfl

theorem Cells.writeAll_cons (m : List (Nat × α)) (a : Nat) (v : α) (l : List (Nat × α)) :
    Cells.writeAll m ((a, v) :: l) = Cells.writeAll (Cells.write m a v) l := by
  cases m <;> rfl

theorem Cells.wf_writeAll {m : List (Nat × α)} (l : List (Nat × α)) (hm : Cells.wf m = true) :
    Cells.wf (Cells.writeAll m l) = true := by
  induction l generalizing m with
  | nil => simpa using hm
  | cons c l ih =>
    obtain ⟨a, v⟩ := c
    simpa [Cells.writeAll_cons] using ih (Cells.wf_write a v hm)

theorem Cells.below_writeAll {m l : List (Nat × α)} {n : Nat} (hl : ∀ c ∈ l, c.1 < n)
    (hm : Cells.below n m = true) : Cells.below n (Cells.writeAll m l) = true := by
  induction l generalizing m with
  | nil => simpa using hm
  | cons c l ih =>
    obtain ⟨a, v⟩ := c
    rw [Cells.writeAll_cons]
    exact ih (fun d hd => hl d (by simp [hd])) (Cells.below_write v (hl (a, v) (by simp)) hm)

/-- An address no write names reads as before. -/
theorem Cells.read_writeAll_other {m l : List (Nat × α)} {a : Nat} (h : ∀ c ∈ l, c.1 ≠ a) :
    Cells.read (Cells.writeAll m l) a = Cells.read m a := by
  induction l generalizing m with
  | nil => simp
  | cons c l ih =>
    obtain ⟨b, v⟩ := c
    have hb : a ≠ b := fun e => h (b, v) (by simp) e.symm
    rw [Cells.writeAll_cons, ih fun d hd => h d (by simp [hd]), Cells.read_write_other _ _ _ _ hb]

/-- Where the writes name distinct addresses, each reads as written. -/
theorem Cells.read_writeAll_mem {m l : List (Nat × α)} {a : Nat} {v : α}
    (hnd : (l.map Prod.fst).Nodup) (h : (a, v) ∈ l) :
    Cells.read (Cells.writeAll m l) a = some v := by
  induction l generalizing m with
  | nil => simp at h
  | cons c l ih =>
    obtain ⟨b, w⟩ := c
    simp only [List.map_cons, List.nodup_cons, List.mem_map] at hnd
    rw [Cells.writeAll_cons]
    rcases List.mem_cons.mp h with h | h
    · obtain ⟨rfl, rfl⟩ := Prod.mk.inj h
      rw [Cells.read_writeAll_other fun d hd e => hnd.1 ⟨d, hd, e⟩, Cells.read_write_same]
    · exact ih hnd.2 h

/-! ### Canonical memories -/

theorem Cells.read_lt_risingFrom {m : List (Nat × α)} {lo a : Nat} (ha : a < lo)
    (hm : Cells.risingFrom lo m = true) : Cells.read m a = none := by
  induction m generalizing lo with
  | nil => rfl
  | cons c m ih =>
    obtain ⟨b, w⟩ := c
    simp only [Cells.risingFrom, Bool.and_eq_true, decide_eq_true_eq] at hm
    rw [Cells.read_cons, if_neg (by omega)]
    exact ih (by omega) hm.2

theorem Cells.ext_risingFrom {m m' : List (Nat × α)} {lo lo' : Nat}
    (hm : Cells.risingFrom lo m = true) (hm' : Cells.risingFrom lo' m' = true)
    (h : ∀ a, Cells.read m a = Cells.read m' a) : m = m' := by
  induction m generalizing m' lo lo' with
  | nil =>
    cases m' with
    | nil => rfl
    | cons c m' =>
      obtain ⟨b, w⟩ := c
      have := h b
      simp [Cells.read_cons] at this
  | cons c m ih =>
    obtain ⟨b, w⟩ := c
    simp only [Cells.risingFrom, Bool.and_eq_true, decide_eq_true_eq] at hm
    cases m' with
    | nil =>
      have := h b
      simp [Cells.read_cons] at this
    | cons c' m' =>
      obtain ⟨b', w'⟩ := c'
      simp only [Cells.risingFrom, Bool.and_eq_true, decide_eq_true_eq] at hm'
      have hb : b = b' := by
        rcases Nat.lt_trichotomy b b' with hlt | heq | hgt
        · have := h b
          rw [Cells.read_cons, if_pos rfl, Cells.read_cons, if_neg (by omega),
            Cells.read_lt_risingFrom (by omega) hm'.2] at this
          simp at this
        · exact heq
        · have := h b'
          rw [Cells.read_cons, if_neg (by omega), Cells.read_lt_risingFrom (by omega) hm.2,
            Cells.read_cons, if_pos rfl] at this
          simp at this
      subst hb
      have hw := h b
      simp only [Cells.read_cons, if_true, Option.some.injEq] at hw
      subst hw
      congr 1
      refine ih hm.2 hm'.2 fun a => ?_
      by_cases ha : a = b
      · subst ha
        rw [Cells.read_lt_risingFrom (by omega) hm.2, Cells.read_lt_risingFrom (by omega) hm'.2]
      · simpa [Cells.read_cons, ha] using h a

/-- Two memories in canonical form that read the same everywhere are equal. -/
theorem Cells.ext_of_wf {m m' : List (Nat × α)} (hm : Cells.wf m = true) (hm' : Cells.wf m' = true)
    (h : ∀ a, Cells.read m a = Cells.read m' a) : m = m' := Cells.ext_risingFrom hm hm' h

/-! ### The load of a byte sequence -/

theorem Memory.wf_load {m : Memory} (a : Nat) (bs : List Byte) (hm : Memory.wf m = true) :
    Memory.wf (Memory.load m a bs) = true := by
  induction bs generalizing a with
  | nil => simpa [Memory.load] using hm
  | cons v bs ih => exact Cells.wf_write a v (ih (a + 1))

/-- A loaded byte reads as loaded, and every other address as before. -/
theorem Memory.read_load (m : Memory) (a : Nat) (bs : List Byte) (a' : Nat) :
    Cells.read (Memory.load m a bs) a' =
      if a ≤ a' then (bs[a' - a]?).or (Cells.read m a') else Cells.read m a' := by
  induction bs generalizing a with
  | nil => simp [Memory.load]
  | cons v bs ih =>
    simp only [Memory.load, Cells.read_write, ih]
    by_cases h : a' = a
    · simp [h]
    · by_cases h' : a ≤ a'
      · have e : a' - a = (a' - (a + 1)) + 1 := by omega
        simp only [h, if_false, if_pos h', if_pos (show a + 1 ≤ a' by omega)]
        rw [e, List.getElem?_cons_succ]
      · simp [h, h', show ¬ a + 1 ≤ a' by omega]

end Sys2Proof.Machine
end

