-- ==== Sys2Proof/Laws/State.lean ====
section
/-! SUPPORT. What each named update of State does to each field: one lemma per field, by rfl, so that no
later proof unfolds an update. -/

namespace Sys2Proof.Machine

variable (s t : State) (i : Instr) (e : ErrCode)

/-! ### State.consume -/

@[simp] theorem consume_cfg : (s.consume i).cfg = s.cfg := rfl
@[simp] theorem consume_src : (s.consume i).src = s.src := rfl
@[simp] theorem consume_srcBase : (s.consume i).srcBase = s.srcBase := rfl
@[simp] theorem consume_srcPos : (s.consume i).srcPos = s.srcPos + i.length := rfl
@[simp] theorem consume_opPos : (s.consume i).opPos = s.srcPos := rfl
@[simp] theorem consume_ctl : (s.consume i).ctl = controlByte s.cfg.xsel i := rfl
@[simp] theorem consume_out : (s.consume i).out = s.out := rfl
@[simp] theorem consume_compSize : (s.consume i).compSize = s.compSize := rfl
@[simp] theorem consume_phase : (s.consume i).phase = s.phase := rfl
@[simp] theorem consume_err : (s.consume i).err = s.err := rfl
@[simp] theorem consume_palSel : (s.consume i).palSel = s.palSel := rfl
@[simp] theorem consume_palRam : (s.consume i).palRam = s.palRam := rfl
@[simp] theorem consume_tileIdx : (s.consume i).tileIdx = s.tileIdx := rfl
@[simp] theorem consume_tTiles : (s.consume i).tTiles = s.tTiles := rfl
@[simp] theorem consume_rasterH : (s.consume i).rasterH = s.rasterH := rfl
@[simp] theorem consume_raster : (s.consume i).raster = s.raster := rfl
@[simp] theorem consume_inbox : (s.consume i).inbox = s.inbox := rfl
@[simp] theorem consume_freeCount : (s.consume i).freeCount = s.freeCount := rfl

/-! ### faultEntry -/

@[simp] theorem faultEntry_cfg : (faultEntry t e s).cfg = s.cfg := rfl
@[simp] theorem faultEntry_src : (faultEntry t e s).src = s.src := rfl
@[simp] theorem faultEntry_srcBase : (faultEntry t e s).srcBase = s.srcBase := rfl
@[simp] theorem faultEntry_srcPos : (faultEntry t e s).srcPos = s.srcPos := rfl
@[simp] theorem faultEntry_opPos : (faultEntry t e s).opPos = s.opPos := rfl
@[simp] theorem faultEntry_ctl : (faultEntry t e s).ctl = s.ctl := rfl
@[simp] theorem faultEntry_out : (faultEntry t e s).out = t.out := rfl
@[simp] theorem faultEntry_compSize : (faultEntry t e s).compSize = s.compSize := rfl
@[simp] theorem faultEntry_phase : (faultEntry t e s).phase = .fault := rfl
@[simp] theorem faultEntry_err : (faultEntry t e s).err = e := rfl
@[simp] theorem faultEntry_palSel : (faultEntry t e s).palSel = s.palSel := rfl
@[simp] theorem faultEntry_palRam : (faultEntry t e s).palRam = s.palRam := rfl
@[simp] theorem faultEntry_tileIdx : (faultEntry t e s).tileIdx = s.tileIdx := rfl
@[simp] theorem faultEntry_tTiles : (faultEntry t e s).tTiles = s.tTiles := rfl
@[simp] theorem faultEntry_rasterH : (faultEntry t e s).rasterH = s.rasterH := rfl
@[simp] theorem faultEntry_raster : (faultEntry t e s).raster = s.raster := rfl
@[simp] theorem faultEntry_inbox : (faultEntry t e s).inbox = s.inbox := rfl
@[simp] theorem faultEntry_freeCount : (faultEntry t e s).freeCount = s.freeCount := rfl

/-! ### State.resetMachine -/

@[simp] theorem resetMachine_cfg : s.resetMachine.cfg = s.cfg := rfl
@[simp] theorem resetMachine_src : s.resetMachine.src = s.src := rfl
@[simp] theorem resetMachine_srcBase : s.resetMachine.srcBase = 0 := rfl
@[simp] theorem resetMachine_srcPos : s.resetMachine.srcPos = 0 := rfl
@[simp] theorem resetMachine_opPos : s.resetMachine.opPos = 0 := rfl
@[simp] theorem resetMachine_ctl : s.resetMachine.ctl = 0x00 := rfl
@[simp] theorem resetMachine_out : s.resetMachine.out = [] := rfl
@[simp] theorem resetMachine_compSize : s.resetMachine.compSize = 0 := rfl
@[simp] theorem resetMachine_phase : s.resetMachine.phase = .idle := rfl
@[simp] theorem resetMachine_err : s.resetMachine.err = .none := rfl
@[simp] theorem resetMachine_palSel : s.resetMachine.palSel = false := rfl
@[simp] theorem resetMachine_palRam : s.resetMachine.palRam = [] := rfl
@[simp] theorem resetMachine_tileIdx : s.resetMachine.tileIdx = 0 := rfl
@[simp] theorem resetMachine_tTiles : s.resetMachine.tTiles = 0 := rfl
@[simp] theorem resetMachine_rasterH : s.resetMachine.rasterH = 0 := rfl
@[simp] theorem resetMachine_raster : s.resetMachine.raster = [] := rfl
@[simp] theorem resetMachine_inbox : s.resetMachine.inbox = s.inbox := rfl
@[simp] theorem resetMachine_freeCount : s.resetMachine.freeCount = s.freeCount := rfl

end Sys2Proof.Machine
end

