-- ==== Sys2Proof/Laws/Ops.lean ====
section
/-! SUPPORT. What each shared operation can do, said once: the capacity check, Commit, the absolute and
the relative copy, the remaining stream. Later proofs cite these and do not unfold the operations. -/

namespace Sys2Proof.Machine

/-! ### Capacity -/

theorem capAllows_iff (c : Config) (n : Nat) :
    capAllows c n = true ↔ ∀ cap, c.outCap = some cap → n ≤ cap := by
  unfold capAllows
  cases c.outCap <;> simp

theorem fits_iff (s : State) (n : Nat) :
    s.Fits n ↔ capAllows s.cfg (s.out.length + n) = true := (capAllows_iff _ _).symm

theorem capAllows_mono {c : Config} {m n : Nat} (h : m ≤ n) (hn : capAllows c n = true) :
    capAllows c m = true := by
  rw [capAllows_iff] at *
  exact fun cap hc => Nat.le_trans h (hn cap hc)

/-! ### Commit -/

theorem commit_eq_append {start s : State} {new : List Byte} (h : s.Fits new.length) :
    commit start s new = { s with out := s.out ++ new } := by
  rw [fits_iff] at h
  simp [commit, h]

theorem commit_eq_overflow {start s : State} {new : List Byte} (h : ¬ s.Fits new.length) :
    commit start s new = faultEntry start .outputOverflow s := by
  rw [fits_iff] at h
  simp [commit, h]

/-! ### Copies -/

theorem absSlice_eq_some {out new : List Byte} {o n : Nat} (h : absSlice out o n = some new) :
    o + n ≤ out.length ∧ new = (out.drop o).take n ∧ new.length = n := by
  unfold absSlice at h
  split at h
  · cases h
    refine ⟨‹_›, rfl, ?_⟩
    simp
    omega
  · cases h

theorem absSlice_eq_none {out : List Byte} {o n : Nat} :
    absSlice out o n = none ↔ out.length < o + n := by
  unfold absSlice
  split <;> simp <;> omega

/-- From an address below the end the loop never fails, and only appends: `n` bytes. -/
theorem relLoop_appends (n a : Nat) (out : List Byte) (h : a < out.length) :
    ∃ new, new.length = n ∧ relLoop n a out = some (out ++ new) := by
  induction n generalizing a out with
  | zero => exact ⟨[], rfl, by simp [relLoop]⟩
  | succ n ih =>
    obtain ⟨new, hl, hr⟩ := ih (a + 1) (out ++ [out[a]]) (by simp; omega)
    refine ⟨out[a] :: new, by simp [hl], ?_⟩
    simp [relLoop, List.getElem?_eq_getElem h, hr]

/-- What an absolute copy can do (R150, R151): raise OutOfRangeReference, or commit the slice. -/
theorem absCopy_cases (start s : State) (n : Nat) (o : Half) (f : Byte → Byte) :
    (s.out.length < o.toNat + n ∧ absCopy start s n o f = faultEntry start .outOfRangeReference s) ∨
    (o.toNat + n ≤ s.out.length ∧ (((s.out.drop o.toNat).take n).map f).length = n ∧
      absCopy start s n o f = commit start s (((s.out.drop o.toNat).take n).map f)) := by
  by_cases h : o.toNat + n ≤ s.out.length
  · refine .inr ⟨h, ?_, by simp [absCopy, absSlice, h]⟩
    simp
    omega
  · exact .inl ⟨by omega, by simp [absCopy, absSlice, h]⟩

/-- What a relative copy can do (R161): raise OutOfRangeReference, raise OutputOverflow, or append the
`n` bytes of its loop. -/
theorem relCopy_cases (start s : State) (n : Nat) (b : Byte) :
    ((b = 0#8 ∨ s.out.length < b.toNat) ∧
      relCopy start s n b = faultEntry start .outOfRangeReference s) ∨
    (b ≠ 0#8 ∧ b.toNat ≤ s.out.length ∧ ¬ s.Fits n ∧
      relCopy start s n b = faultEntry start .outputOverflow s) ∨
    (b ≠ 0#8 ∧ b.toNat ≤ s.out.length ∧ s.Fits n ∧ ∃ new, new.length = n ∧
      relLoop n (s.out.length - b.toNat) s.out = some (s.out ++ new) ∧
      relCopy start s n b = { s with out := s.out ++ new }) := by
  by_cases h : b = 0#8 ∨ s.out.length < b.toNat
  · exact .inl ⟨h, by rw [relCopy, if_pos h]⟩
  · have h0 : b ≠ 0#8 := fun e => h (.inl e)
    have hb : b.toNat ≤ s.out.length := by
      have : ¬ s.out.length < b.toNat := fun e => h (.inr e)
      omega
    have hp : 0 < b.toNat := by
      rcases Nat.eq_zero_or_pos b.toNat with e | e
      · exact absurd (BitVec.eq_of_toNat_eq (by simpa using e)) h0
      · exact e
    right
    by_cases hf : s.Fits n
    · obtain ⟨new, hl, hr⟩ := relLoop_appends n (s.out.length - b.toNat) s.out (by omega)
      have hf' := (fits_iff s n).mp hf
      exact .inr ⟨h0, hb, hf, new, hl, hr, by rw [relCopy, if_neg h, if_pos hf', hr]⟩
    · have hf' : ¬ capAllows s.cfg (s.out.length + n) = true := fun e => hf ((fits_iff s n).mpr e)
      exact .inl ⟨h0, hb, hf, by rw [relCopy, if_neg h, if_neg hf']⟩

/-! ### The stream -/

@[simp] theorem length_srcBytes (s : State) (a n : Nat) : (s.srcBytes a n).length = n := by
  simp [State.srcBytes]

theorem getElem?_srcBytes (s : State) (a n k : Nat) (h : k < n) :
    (s.srcBytes a n)[k]? = some (s.srcByte (a + k)) := by
  simp [State.srcBytes, h]

theorem srcBytes_succ (s : State) (a n : Nat) :
    s.srcBytes a (n + 1) = s.srcByte a :: s.srcBytes (a + 1) n := by
  simp [State.srcBytes, List.range'_succ]

@[simp] theorem srcBytes_zero (s : State) (a : Nat) : s.srcBytes a 0 = [] := rfl

theorem take_srcBytes (s : State) (a m n : Nat) (h : m ≤ n) :
    (s.srcBytes a n).take m = s.srcBytes a m := by
  apply List.ext_getElem?
  intro k
  by_cases hk : k < m
  · rw [List.getElem?_take_of_lt hk, getElem?_srcBytes s a n k (by omega), getElem?_srcBytes s a m k hk]
  · rw [List.getElem?_eq_none (by simp; omega), List.getElem?_eq_none (by simp; omega)]

@[simp] theorem length_stream (s : State) : s.stream.length = min maxLength s.remaining := by
  simp [State.stream]

/-- Where the stream has a byte left, it is the control byte, then up to 1025 more. -/
theorem stream_cons {s : State} (h : s.srcAddr < s.cfg.srcSize) :
    s.stream = s.srcByte s.srcAddr :: s.srcBytes (s.srcAddr + 1) (min 1025 (s.remaining - 1)) := by
  have e : min maxLength s.remaining = min 1025 (s.remaining - 1) + 1 := by
    unfold State.remaining maxLength
    omega
  rw [State.stream, e, srcBytes_succ]

theorem stream_nil {s : State} (h : s.cfg.srcSize ≤ s.srcAddr) : s.stream = [] := by
  have e : s.remaining = 0 := by
    unfold State.remaining
    omega
  simp [State.stream, e]

end Sys2Proof.Machine
end

