-- ==== Sys2Proof/Laws/Exec.lean ====
section
/-! SUPPORT. What a meaning can do, said once for all instructions: exec always answers a next state, and
that state is a fault entry of the consumed opcode, the end of the decode, or the opcode's run
appended. Invariants and frames are derived from this, without unfolding a meaning again. -/

namespace Sys2Proof.Machine

/-- The outcome of an opcode: the three things a meaning can do. -/
def Outcomes (i : Instr) (s t : State) : Prop :=
  (∃ e, (e = .malformedOpcode ∨ e = .outOfRangeReference ∨ e = .outputOverflow) ∧
      t = faultEntry s e (s.consume i)) ∨
  (i = .endStream ∧ t = { s.consume .endStream with compSize := s.srcPos, phase := .decoded }) ∨
  (∃ new, new.length = runLength i ∧ s.Fits new.length ∧
      t = { s.consume i with out := s.out ++ new })

theorem outcomes_commit (i : Instr) (s : State) (new : List Byte) (h : new.length = runLength i) :
    Outcomes i s (commit s (s.consume i) new) := by
  by_cases hf : (s.consume i).Fits new.length
  · exact .inr (.inr ⟨new, h, hf, by rw [commit_eq_append hf]; rfl⟩)
  · exact .inl ⟨_, .inr (.inr rfl), commit_eq_overflow hf⟩

theorem outcomes_absCopy (i : Instr) (s : State) (n : Nat) (o : Half) (f : Byte → Byte)
    (h : runLength i = n) : Outcomes i s (absCopy s (s.consume i) n o f) := by
  rcases absCopy_cases s (s.consume i) n o f with ⟨_, e⟩ | ⟨_, hl, e⟩
  · exact .inl ⟨_, .inr (.inl rfl), e⟩
  · rw [e]
    exact outcomes_commit i s _ (by rw [h]; exact hl)

theorem outcomes_relCopy (i : Instr) (s : State) (n : Nat) (b : Byte) (h : runLength i = n) :
    Outcomes i s (relCopy s (s.consume i) n b) := by
  rcases relCopy_cases s (s.consume i) n b with ⟨_, e⟩ | ⟨_, _, _, e⟩ | ⟨_, _, hf, new, hl, _, e⟩
  · exact .inl ⟨_, .inr (.inl rfl), e⟩
  · exact .inl ⟨_, .inr (.inr rfl), e⟩
  · exact .inr (.inr ⟨new, by rw [hl, h], by rw [hl]; exact hf, e⟩)

/-- Every meaning answers a next state, one of the three outcomes. -/
theorem exec_outcomes (i : Instr) (s : State) : ∃ t, exec i s = .next t ∧ Outcomes i s t := by
  cases i with
  | lit d => exact ⟨_, rfl, outcomes_commit _ s d rfl⟩
  | fill n v => exact ⟨_, rfl, outcomes_commit _ s _ (by simp [fillRun, runLength])⟩
  | pair n p0 p1 => exact ⟨_, rfl, outcomes_commit _ s _ (by simp [pairRun, runLength])⟩
  | ramp n v => exact ⟨_, rfl, outcomes_commit _ s _ (by simp [rampRun, runLength])⟩
  | acpy n o => exact ⟨_, rfl, outcomes_absCopy _ s n o _ rfl⟩
  | ainv n o => exact ⟨_, rfl, outcomes_absCopy _ s n o _ rfl⟩
  | rcpy n b => exact ⟨_, rfl, outcomes_relCopy _ s n b rfl⟩
  | xlit d => exact ⟨_, rfl, outcomes_commit _ s d rfl⟩
  | xfill n v => exact ⟨_, rfl, outcomes_commit _ s _ (by simp [fillRun, runLength])⟩
  | xpair n p0 p1 => exact ⟨_, rfl, outcomes_commit _ s _ (by simp [pairRun, runLength])⟩
  | xrcpy n b => exact ⟨_, rfl, outcomes_relCopy _ s n b rfl⟩
  | xrsv ctl => exact ⟨_, rfl, .inl ⟨_, .inl rfl, rfl⟩⟩
  | endStream => exact ⟨_, rfl, .inr (.inl ⟨rfl, rfl⟩)⟩

theorem exec_next {i : Instr} {s t : State} (h : exec i s = .next t) : Outcomes i s t := by
  obtain ⟨t', ht, ho⟩ := exec_outcomes i s
  rw [h] at ht
  cases ht
  exact ho

end Sys2Proof.Machine
end

