-- ==== Sys2Proof/Laws/PerInstr.lean ====
section
/-! SUPPORT. Laws of the instructions as syntax, one lemma per constructor. The family EncodeLength: the
encoding of an instruction has the number of bytes R96 gives its form. -/

namespace Sys2Proof.Laws.EncodeLength

/-- The encoding has the length R96 gives, under every selector assignment. -/
def Statement (i : Instr) : Prop := ∀ x : XSel, (encode x i).length = i.length

theorem statement_of (i : Instr) : Statement i := fun x => by
  rw [encode, List.length_cons, length_operandBytes]

theorem lit (d : List Byte) : Statement (.lit d) := statement_of _
theorem fill (n : Nat) (v : Byte) : Statement (.fill n v) := statement_of _
theorem pair (n : Nat) (p0 p1 : Byte) : Statement (.pair n p0 p1) := statement_of _
theorem ramp (n : Nat) (v : Byte) : Statement (.ramp n v) := statement_of _
theorem acpy (n : Nat) (o : Half) : Statement (.acpy n o) := statement_of _
theorem ainv (n : Nat) (o : Half) : Statement (.ainv n o) := statement_of _
theorem rcpy (n : Nat) (b : Byte) : Statement (.rcpy n b) := statement_of _
theorem xlit (d : List Byte) : Statement (.xlit d) := statement_of _
theorem xfill (n : Nat) (v : Byte) : Statement (.xfill n v) := statement_of _
theorem xpair (n : Nat) (p0 p1 : Byte) : Statement (.xpair n p0 p1) := statement_of _
theorem xrcpy (n : Nat) (b : Byte) : Statement (.xrcpy n b) := statement_of _
theorem xrsv (ctl : Byte) : Statement (.xrsv ctl) := statement_of _
theorem endStream : Statement .endStream := statement_of _

end Sys2Proof.Laws.EncodeLength
end

