-- ==== Sys2Proof/Laws/Step.lean ====
section
/-! SUPPORT. What a fetch, a step of DEC, a step of REN, a host move and a step can do, each said once. An
invariant or a frame over steps is a case analysis of these. -/

namespace Sys2Proof

/-- An instruction that was decoded lies wholly in the bytes it was decoded from. -/
theorem decode_length_le {x : XSel} {bs : List Byte} {i : Instr} (h : decode x bs = .ok i) :
    i.length ≤ bs.length := by
  cases bs with
  | nil => simp at h
  | cons c bs =>
    rw [decode_cons] at h
    cases hf : formOf x c <;> rw [hf] at h <;> simp only [readOperands] at h
    case lit =>
      cases ht : takeBytes (shortCount c) bs with
      | none => simp [ht] at h
      | some d =>
        obtain ⟨hl, rfl⟩ := takeBytes_eq_some.mp ht
        simp only [ht, Option.map_some, Except.ok.injEq] at h
        subst h
        simp [Instr.length]
        omega
    case xlit =>
      rcases bs with _ | ⟨k, bs⟩
      · simp at h
      · cases ht : takeBytes (extCount c k) bs with
        | none => simp [ht] at h
        | some d =>
          obtain ⟨hl, rfl⟩ := takeBytes_eq_some.mp ht
          simp only [ht, Option.map_some, Except.ok.injEq] at h
          subst h
          simp [Instr.length]
          omega
    all_goals
      rcases bs with _ | ⟨b0, _ | ⟨b1, _ | ⟨b2, bs⟩⟩⟩ <;> simp at h <;> subst h <;>
        simp [Instr.length]

/-- No control byte is missing but where there is no byte at all. -/
theorem decode_noControlByte {x : XSel} {bs : List Byte}
    (h : decode x bs = .error .noControlByte) : bs = [] := by
  cases bs with
  | nil => rfl
  | cons c bs =>
    rw [decode_cons] at h
    split at h <;> simp at h

/-- Where operands are missing, the control byte was there. -/
theorem decode_missingOperands {x : XSel} {bs : List Byte} {c : Byte}
    (h : decode x bs = .error (.missingOperands c)) : ∃ rest, bs = c :: rest := by
  cases bs with
  | nil => simp at h
  | cons c' bs =>
    rw [decode_cons] at h
    split at h <;> simp at h
    exact ⟨bs, by rw [h]⟩

end Sys2Proof

namespace Sys2Proof.Machine

/-! ### The fetch -/

@[simp] theorem fetch_inbox (s : State) (l : List (Option HostMove)) :
    State.fetch { s with inbox := l } = s.fetch := rfl

/-- A fetched opcode lies wholly inside SRC. -/
theorem fetch_ok_inside {s : State} {i : Instr} (h : s.fetch = .ok i) :
    s.srcBase + s.srcPos + i.length ≤ s.cfg.srcSize := by
  have hl := decode_length_le h
  have hp := i.length_pos
  rw [length_stream] at hl
  unfold State.remaining State.srcAddr at hl
  omega

/-- What the fetch fault can be: the two forms of SourceExhausted. -/
theorem fetchFault_cases {s : State} {e : DecodeError} (h : s.fetch = .error e) :
    (s.cfg.srcSize ≤ s.srcBase + s.srcPos ∧
      fetchFault s e = { s with opPos := s.srcPos, err := .sourceExhausted, phase := .fault }) ∨
    (s.srcBase + s.srcPos < s.cfg.srcSize ∧
      fetchFault s e = s.exhausts (s.srcByte (s.srcBase + s.srcPos))) := by
  cases e with
  | noControlByte =>
    left
    have := congrArg List.length (decode_noControlByte h)
    rw [length_stream] at this
    simp only [State.remaining, State.srcAddr, maxLength, List.length_nil] at this
    exact ⟨by omega, rfl⟩
  | missingOperands c =>
    right
    obtain ⟨rest, hr⟩ := decode_missingOperands h
    have hlt : s.srcAddr < s.cfg.srcSize := by
      by_contra hc
      rw [stream_nil (by omega)] at hr
      cases hr
    rw [stream_cons hlt] at hr
    cases hr
    exact ⟨hlt, rfl⟩

/-! ### Steps -/

/-- What a step of DEC can do: the outcome of the opcode fetched, or the fault of a fetch. -/
theorem decStep_cases {s t : State} (h : decStep s = .next t) :
    (∃ i, s.fetch = .ok i ∧ Outcomes i s t) ∨
    (∃ e, s.fetch = .error e ∧ t = fetchFault s e) := by
  unfold decStep at h
  split at h
  · exact .inl ⟨_, ‹_›, exec_next h⟩
  · exact .inr ⟨_, ‹_›, by cases h; rfl⟩

/-- A step of DEC always answers a next state. -/
theorem decStep_next (s : State) : ∃ t, decStep s = .next t := by
  unfold decStep
  split
  · obtain ⟨t, ht, _⟩ := exec_outcomes _ s
    exact ⟨t, ht⟩
  · exact ⟨_, rfl⟩

/-- What a step of REN can do, where it answers a next state. -/
theorem renStep_cases {s t : State} (h : renStep s = .next t) :
    (s.tileIdx = s.tTiles ∧ t = { s with phase := .rendered }) ∨
    (s.tileIdx ≠ s.tTiles ∧ composeY s.tileIdx 7 < s.rasterH ∧ ∃ u, tileRecord s.out s.tileIdx = some u ∧
      t = { s with
        raster := Cells.writeAll s.raster (tileWrites s s.tileIdx u)
        tileIdx := s.tileIdx + 1 }) := by
  unfold renStep at h
  split at h
  · exact .inl ⟨‹_›, by cases h; rfl⟩
  · split at h
    · cases h
    · split at h
      · exact .inr ⟨‹_›, ‹_›, _, ‹_›, by cases h; rfl⟩
      · cases h

/-- What the enabled agent's turn can do, by phase. -/
theorem agentTurn_cases {s t : State} (h : agentTurn s = .next t) :
    (s.phase = .decode ∧ decStep s = .next t) ∨ (s.phase = .render ∧ renStep s = .next t) ∨
    (s.phase ≠ .decode ∧ s.phase ≠ .render ∧ t = s) := by
  unfold agentTurn at h
  split at h <;> rename_i hp
  · exact .inr (.inr ⟨by simp [hp], by simp [hp], by cases h; rfl⟩)
  · exact .inl ⟨hp, h⟩
  · exact .inr (.inr ⟨by simp [hp], by simp [hp], by cases h; rfl⟩)
  · exact .inr (.inl ⟨hp, h⟩)
  · exact .inr (.inr ⟨by simp [hp], by simp [hp], by cases h; rfl⟩)
  · exact .inr (.inr ⟨by simp [hp], by simp [hp], by cases h; rfl⟩)

/-- What the render start can do (R211). -/
theorem renderStart_cases (s : State) :
    (s.palSel = true ∧ s.palRam.length < 16 ∧
      renderStart s = { s with err := .configurationError, phase := .fault }) ∨
    (¬ (s.palSel = true ∧ s.palRam.length < 16) ∧ s.out.length / 32 % 16 ≠ 0 ∧
      renderStart s = { s with err := .rasterRange, phase := .fault }) ∨
    (¬ (s.palSel = true ∧ s.palRam.length < 16) ∧ s.out.length / 32 % 16 = 0 ∧
      renderStart s = { s with
        tTiles := s.out.length / 32, rasterH := s.out.length / 64, raster := [],
        tileIdx := 0, phase := .render }) := by
  unfold renderStart
  split
  · exact .inl ⟨‹_ ∧ _›.1, ‹_ ∧ _›.2, rfl⟩
  · split
    · exact .inr (.inl ⟨‹_›, ‹_›, rfl⟩)
    · exact .inr (.inr ⟨‹_›, by simpa [State.outLen] using ‹¬ _ ≠ 0›, rfl⟩)

/-- A write to SRC_BASE of a value POS_W bits hold (R23, R33). -/
theorem writeSrcBase_of_holds {v : Nat} {s : State} (h : posHolds s.cfg v = true) :
    writeSrcBase v s = { s with srcBase := v } := by
  unfold writeSrcBase
  unfold posHolds at h
  split <;> simp_all

/-- What a write to SRC_BASE can do: the register then holds a value of POS_W bits. -/
theorem writeSrcBase_cases (v : Nat) (s : State) :
    ∃ b k, posHolds s.cfg b = true ∧ writeSrcBase v s = { s with srcBase := b, freeCount := k } := by
  by_cases hv : posHolds s.cfg v = true
  · exact ⟨v, s.freeCount, hv, writeSrcBase_of_holds hv⟩
  · unfold posHolds at hv
    cases hw : s.cfg.posW with
    | none => simp [hw] at hv
    | some w =>
      refine ⟨Config.srcBaseWide s.freeCount % 2 ^ w, s.freeCount + 1, ?_, ?_⟩
      · simp [posHolds, hw, Nat.mod_lt _ (Nat.two_pow_pos w)]
      · unfold writeSrcBase
        simp [hw, show ¬ v < 2 ^ w by simpa [hw] using hv]

/-- What a host move can do, where it answers a next state. -/
theorem hostMove_cases {m : HostMove} {s t : State} (h : hostMove m s = .next t) :
    t = s ∨
    (m = .cmd 1 ∧ s.phase = .idle ∧ t = { s with phase := .decode }) ∨
    (m = .cmd 2 ∧ s.phase = .decoded ∧ t = renderStart s) ∨
    ((m = .cmd 3 ∧ s.phase ≠ .decode ∧ s.phase ≠ .render ∨ m = .hardReset) ∧
      t = s.resetMachine) ∨
    (∃ v b k, m = .setSrcBase v ∧ s.phase = .idle ∧ posHolds s.cfg b = true ∧
      t = { s with srcBase := b, freeCount := k }) ∨
    (∃ v, m = .setPalSel v ∧ s.phase = .idle ∧ t = { s with palSel := v.testBit 0 }) ∨
    (∃ w, m = .palPush w ∧ s.phase = .idle ∧ s.palRam.length < 16 ∧
      t = { s with palRam := s.palRam ++ [w] }) ∨
    (∃ a v, m = .writeSrc a v ∧ s.phase = .idle ∧ a < s.cfg.srcSize ∧
      t = { s with src := Cells.write s.src a v }) := by
  cases m with
  | cmd v =>
    simp only [hostMove, writeCmd] at h
    split at h
    · obtain ⟨rfl, hp⟩ := ‹v = 1 ∧ _›
      cases h
      exact .inr (.inl ⟨rfl, hp, rfl⟩)
    · split at h
      · obtain ⟨rfl, hp⟩ := ‹v = 2 ∧ _›
        cases h
        exact .inr (.inr (.inl ⟨rfl, hp, rfl⟩))
      · split at h
        · obtain ⟨rfl, hp⟩ := ‹v = 3 ∧ _›
          cases h
          refine .inr (.inr (.inr (.inl ⟨.inl ⟨rfl, ?_, ?_⟩, rfl⟩))) <;>
            intro e <;> simp [e, Phase.hostOwned] at hp
        · cases h
          exact .inl rfl
  | setSrcBase v =>
    simp only [hostMove] at h
    split at h
    · obtain ⟨b, k, hb, e⟩ := writeSrcBase_cases v s
      cases h
      exact .inr (.inr (.inr (.inr (.inl ⟨v, b, k, rfl, ‹_›, hb, e⟩))))
    · cases h
      exact .inl rfl
  | setPalSel v =>
    simp only [hostMove] at h
    split at h
    · cases h
      exact .inr (.inr (.inr (.inr (.inr (.inl ⟨v, rfl, ‹_›, rfl⟩)))))
    · cases h
      exact .inl rfl
  | palPush w =>
    simp only [hostMove, pushPalette] at h
    split at h
    · split at h
      · cases h
        exact .inr (.inr (.inr (.inr (.inr (.inr (.inl ⟨w, rfl, ‹_›, ‹_›, rfl⟩))))))
      · cases h
        exact .inl rfl
    · cases h
      exact .inl rfl
  | writeSrc a v =>
    simp only [hostMove] at h
    split at h
    · split at h
      · cases h
        exact .inr (.inr (.inr (.inr (.inr (.inr (.inr ⟨a, v, rfl, ‹_›, ‹_›, rfl⟩))))))
      · cases h
    · cases h
  | hardReset =>
    cases h
    exact .inr (.inr (.inr (.inl ⟨.inr rfl, rfl⟩)))

/-- What a step can do: the enabled agent's turn, or a host move, on the state without that turn. -/
theorem step_cases {s t : State} (h : step s = .next t) :
    ((s.inbox = [] ∨ s.inbox.head? = some none) ∧
      agentTurn { s with inbox := s.inbox.tail } = .next t) ∨
    (∃ m, s.inbox.head? = some (some m) ∧ hostMove m { s with inbox := s.inbox.tail } = .next t) := by
  unfold step at h
  split at h
  · rename_i hi
    refine .inl ⟨.inl hi, ?_⟩
    have e : ({ s with inbox := s.inbox.tail } : State) = s := by
      cases s
      cases hi
      rfl
    rw [e]
    exact h
  · rename_i rest hi
    exact .inl ⟨.inr (by simp [hi]), by simpa [hi] using h⟩
  · rename_i m rest hi
    exact .inr ⟨m, by simp [hi], by simpa [hi] using h⟩

end Sys2Proof.Machine
end

