-- ==== Sys2Proof/Tests/Slice0.lean ====
section
/-! SUPPORT. The model's own tests. Every expected result is one of spec/95_test_vectors.md (its id in
the comment) or is worked out by hand from the rule the comment cites. The `witness_` theorems give,
for each obligation with hypotheses, states and operands that meet them. -/

namespace Sys2Proof.Tests

open Sys2Proof Sys2Proof.Machine

/-! ## Helpers -/

/-- The machine with the stream `bs` in SRC at 0, about to decode it, and OUT holding `out`. -/
def prog (out bs : List Byte) : State := { State.reset.withStream bs with out := out }

/-- The same with OUT_CAP = `cap`. -/
def progCap (cap : Nat) (out bs : List Byte) : State :=
  { prog out bs with cfg := { (prog out bs).cfg with outCap := some cap } }

/-- A machine that has decoded `out`. -/
def decoded (out : List Byte) : State :=
  { State.reset with out := out, phase := .decoded, opPos := 3, srcPos := 4, compSize := 3, ctl := 0xFF }

/-- The next state of a result, if it is one. -/
def after : Result → Option State
  | .next t => some t
  | .fault _ => none
  | .refused _ => none

/-- The refusal of a result, if it is one. -/
def refusal : Result → Option Refusal
  | .next _ => none
  | .fault _ => none
  | .refused r => some r

/-- What a test looks at after an opcode. -/
structure Seen where
  phase : Phase
  err : ErrCode
  out : List Byte
  opPos : Nat
  srcPos : Nat
  ctl : Byte
deriving DecidableEq, Repr

/-- That much of a next state. -/
def seen (r : Result) : Option Seen :=
  (after r).map fun t => ⟨t.phase, t.err, t.out, t.opPos, t.srcPos, t.ctl⟩

/-- The bytes 10 20 30 40 the copy vectors start from. -/
def tens : List Byte := [0x10, 0x20, 0x30, 0x40]

/-- Tile record T5: t[i] = i. -/
def tileT5 : Tile := Vector.ofFn fun i : Fin 32 => BitVec.ofNat 8 i.val

/-- Tile record T4. -/
def tileT4 : Tile :=
  ⟨#[0xF0, 0xCC, 0, 0, 0, 0, 0x80, 0, 0, 0, 0, 0, 0, 0, 1, 1,
     0xAA, 0x81, 0, 0, 0, 0, 0, 0x40, 0, 0, 0, 0, 0, 0, 1, 1], rfl⟩

/-! ## WellFormed refuses the ill-formed -/

/-- A short count is 1 to 32 (R94). -/
theorem test_wf_short_lengths :
    (Instr.fill 0 7).wf XSel.standard = false ∧ (Instr.fill 33 7).wf XSel.standard = false ∧
    (Instr.fill 1 7).wf XSel.standard = true ∧ (Instr.fill 32 7).wf XSel.standard = true ∧
    (Instr.lit []).wf XSel.standard = false ∧
    (Instr.lit (List.replicate 33 0)).wf XSel.standard = false ∧
    (Instr.pair 0 1 2).wf XSel.standard = false ∧ (Instr.ramp 33 1).wf XSel.standard = false ∧
    (Instr.acpy 0 0).wf XSel.standard = false ∧ (Instr.ainv 33 0).wf XSel.standard = false ∧
    (Instr.rcpy 0 1).wf XSel.standard = false := by decide

/-- An extended count is 1 to 1024 (R95). -/
theorem test_wf_extended_lengths :
    (Instr.xfill 0 7).wf XSel.standard = false ∧ (Instr.xfill 1025 7).wf XSel.standard = false ∧
    (Instr.xfill 1024 7).wf XSel.standard = true ∧ (Instr.xpair 0 1 2).wf XSel.standard = false ∧
    (Instr.xrcpy 1025 1).wf XSel.standard = false ∧ (Instr.xlit []).wf XSel.standard = false := by
  decide

/-- At selector 7 the counts above 768 are the sentinel's (70 R265). -/
theorem test_wf_sentinel_shadow :
    let x : XSel := { literal := 0, fill := 7, pair := 2, rel := 6 }
    x.wf = true ∧ (Instr.xfill 768 1).wf x = true ∧ (Instr.xfill 769 1).wf x = false := by decide

/-- A reserved control byte is of family 7, unassigned and not 0xFF (R176). -/
theorem test_wf_reserved :
    (Instr.xrsv 0xEC).wf XSel.standard = true ∧ (Instr.xrsv 0xFE).wf XSel.standard = true ∧
    (Instr.xrsv 0xFF).wf XSel.standard = false ∧ (Instr.xrsv 0xE0).wf XSel.standard = false ∧
    (Instr.xrsv 0x1C).wf XSel.standard = false := by decide

/-- The four selectors are distinct (R99). -/
theorem test_wf_selectors :
    XSel.standard.wf = true ∧
    (XSel.wf { literal := 0, fill := 0, pair := 2, rel := 6 }) = false ∧
    (XSel.wf { literal := 2, fill := 1, pair := 2, rel := 6 }) = false ∧
    (XSel.wf { literal := 6, fill := 1, pair := 2, rel := 6 }) = false ∧
    (XSel.wf { literal := 0, fill := 2, pair := 2, rel := 6 }) = false ∧
    (XSel.wf { literal := 0, fill := 6, pair := 2, rel := 6 }) = false ∧
    (XSel.wf { literal := 0, fill := 1, pair := 6, rel := 6 }) = false := by decide

/-- A finite POS_W holds every position (92 D4). -/
theorem test_wf_config :
    Config.standard.wf = true ∧
    ({ Config.standard with posW := some 4, outCap := some 15, srcSize := 15 } : Config).wf = true ∧
    ({ Config.standard with posW := some 4, outCap := some 15, srcSize := 16 } : Config).wf = false ∧
    ({ Config.standard with posW := some 4, outCap := some 16, srcSize := 15 } : Config).wf = false ∧
    ({ Config.standard with posW := some 4, outCap := none, srcSize := 15 } : Config).wf = false := by
  decide

/-! ## Decoding: words written out from the encoding tables -/

/-- LIT, 000ccccc with c = 2 (S1). -/
theorem test_decode_lit :
    decode XSel.standard [0b00000010, 0x11, 0x22, 0x33, 0xFF] = .ok (.lit [0x11, 0x22, 0x33]) := by
  decide

/-- FILL, 001ccccc with c = 5 (S2). -/
theorem test_decode_fill : decode XSel.standard [0b00100101, 0x7F, 0xFF] = .ok (.fill 6 0x7F) := by
  decide

/-- PAIR, 010ccccc with c = 5 (S3). -/
theorem test_decode_pair : decode XSel.standard [0b01000101, 1, 2, 0xFF] = .ok (.pair 6 1 2) := by
  decide

/-- RAMP, 011ccccc with c = 3 (V8). -/
theorem test_decode_ramp : decode XSel.standard [0b01100011, 0xFE, 0xFF] = .ok (.ramp 4 0xFE) := by
  decide

/-- ACPY, 100ccccc with c = 0 and the offset's low byte first (F3). -/
theorem test_decode_acpy : decode XSel.standard [0b10000000, 0x00, 0x01] = .ok (.acpy 1 0x0100) := by
  decide

/-- AINV, 101ccccc with c = 2 (V12). -/
theorem test_decode_ainv : decode XSel.standard [0b10100010, 0x01, 0x00] = .ok (.ainv 3 1) := by
  decide

/-- RCPY, 110ccccc with c = 3 (S6). -/
theorem test_decode_rcpy : decode XSel.standard [0b11000011, 0x02, 0xFF] = .ok (.rcpy 4 2) := by
  decide

/-- XLIT, 111 000 00 and k = 2 (V18). -/
theorem test_decode_xlit :
    decode XSel.standard [0b11100000, 2, 0x0A, 0x0B, 0x0C, 0xFF] = .ok (.xlit [0x0A, 0x0B, 0x0C]) := by
  decide

/-- XFILL, 111 001 01 and k = 0 (V20). -/
theorem test_decode_xfill :
    decode XSel.standard [0b11100101, 0, 0x3C] = .ok (.xfill 257 0x3C) := by decide

/-- XPAIR, 111 010 00 and k = 2 (V22); 111 010 11 and k = FF is n = 1024 (the count table). -/
theorem test_decode_xpair :
    decode XSel.standard [0b11101000, 2, 0x0A, 0x0B] = .ok (.xpair 3 0x0A 0x0B) ∧
    decode XSel.standard [0b11101011, 0xFF, 0x0A, 0x0B] = .ok (.xpair 1024 0x0A 0x0B) := by decide

/-- XRCPY, 111 110 00 and k = 4 (V23); 111 110 11 and k = FE is n = 1023 (the count table). -/
theorem test_decode_xrcpy :
    decode XSel.standard [0b11111000, 4, 2] = .ok (.xrcpy 5 2) ∧
    decode XSel.standard [0b11111011, 0xFE, 2] = .ok (.xrcpy 1023 2) := by decide

/-- XRSV, 111 with selector 3, 4, 5 or 7 (F7 to F10, F20). -/
theorem test_decode_xrsv :
    decode XSel.standard [0b11101100] = .ok (.xrsv 0xEC) ∧
    decode XSel.standard [0b11110000, 0] = .ok (.xrsv 0xF0) ∧
    decode XSel.standard [0b11110101, 0] = .ok (.xrsv 0xF5) ∧
    decode XSel.standard [0b11111110, 0xFF] = .ok (.xrsv 0xFE) := by decide

/-- END, 11111111 (S0). -/
theorem test_decode_end : decode XSel.standard [0b11111111] = .ok .endStream := by decide

/-- What cannot be read is refused by name (F12, F13, F16, F17, F18). -/
theorem test_decode_refuses :
    decode XSel.standard [] = .error .noControlByte ∧
    decode XSel.standard [0x04, 1, 2, 3] = .error (.missingOperands 0x04) ∧
    decode XSel.standard [0x80, 0] = .error (.missingOperands 0x80) ∧
    decode XSel.standard [0xE4] = .error (.missingOperands 0xE4) ∧
    decode XSel.standard [0xE4, 5] = .error (.missingOperands 0xE4) := by decide

/-- The encoder's bytes (P1, P2 and P5, written out there). -/
theorem test_encode :
    encode XSel.standard (.lit [1, 2, 3]) = [0x02, 0x01, 0x02, 0x03] ∧
    encode XSel.standard (.rcpy 5 3) = [0xC4, 0x03] ∧
    encode XSel.standard (.ramp 4 0xFE) = [0x63, 0xFE] ∧
    encode XSel.standard (.ainv 2 1) = [0xA1, 0x01, 0x00] ∧
    encode XSel.standard (.acpy 3 10) = [0x82, 0x0A, 0x00] ∧
    encode XSel.standard (.xpair 512 0xFF 0x00) = [0xE9, 0xFF, 0xFF, 0x00] ∧
    encode XSel.standard (.rcpy 30 2) = [0xDD, 0x02] ∧
    encode XSel.standard .endStream = [0xFF] := by decide

/-- The table words: the control byte lowest, operand bytes of zeros above it. -/
theorem test_table_words :
    decodeTableWord 8 0x25 = some (.fill 6 0) ∧ decodeTableWord 8 0x82 = some (.acpy 3 0) ∧
    decodeTableWord 8 0xFB = some (.xrcpy 769 0) ∧ decodeTableWord 8 0xF0 = some (.xrsv 0xF0) ∧
    decodeTableWord 8 0xFF = some .endStream ∧ decodeTableWord 24 0x010080 = some (.acpy 1 0x0100) := by
  decide

/-- The longest literal run from a table word (R172). -/
theorem test_table_word_xlit : decodeTableWord 8 0xE0 = some (.xlit [0]) := by decide

/-- step runs a table word as the first instruction after reset. -/
theorem test_fetch_word :
    seen (step (State.reset.withFetchWord 16 0x7F25)) =
      some ⟨.decode, .none, List.replicate 6 0x7F, 0, 2, 0x25⟩ := by decide +kernel

/-! ## Each opcode: one result and one fault -/

/-- S1. -/
theorem test_exec_lit :
    seen (step (prog [] [0x02, 0x11, 0x22, 0x33])) =
      some ⟨.decode, .none, [0x11, 0x22, 0x33], 0, 4, 0x02⟩ := by decide

/-- F13: nothing is appended, every byte that is there is consumed. -/
theorem test_fault_lit :
    seen (step (prog [0x55] [0x04, 1, 2, 3])) =
      some ⟨.fault, .sourceExhausted, [0x55], 0, 4, 0x04⟩ := by decide

/-- S2. -/
theorem test_exec_fill :
    seen (step (prog [] [0x25, 0x7F])) =
      some ⟨.decode, .none, [0x7F, 0x7F, 0x7F, 0x7F, 0x7F, 0x7F], 0, 2, 0x25⟩ := by decide

/-- F21: OUT_CAP 4, three bytes there, two more. -/
theorem test_fault_fill :
    seen (step (progCap 4 [1, 2, 3] [0x21, 0x09])) =
      some ⟨.fault, .outputOverflow, [1, 2, 3], 0, 2, 0x21⟩ := by decide

/-- V7: the parity is run-relative. -/
theorem test_exec_pair :
    seen (step (prog [0x99] [0x42, 0xA1, 0xB2])) =
      some ⟨.decode, .none, [0x99, 0xA1, 0xB2, 0xA1], 0, 3, 0x42⟩ := by decide

/-- F15. -/
theorem test_fault_pair :
    seen (step (prog [] [0x45, 0x01])) = some ⟨.fault, .sourceExhausted, [], 0, 2, 0x45⟩ := by decide

/-- V8: the ramp wraps. -/
theorem test_exec_ramp :
    seen (step (prog [] [0x63, 0xFE])) =
      some ⟨.decode, .none, [0xFE, 0xFF, 0x00, 0x01], 0, 2, 0x63⟩ := by decide

/-- V10. -/
theorem test_exec_acpy :
    seen (step (prog tens [0x81, 1, 0])) =
      some ⟨.decode, .none, tens ++ [0x20, 0x30], 0, 3, 0x81⟩ := by decide

/-- F1: one byte too far. -/
theorem test_fault_acpy :
    seen (step (prog tens [0x83, 1, 0])) = some ⟨.fault, .outOfRangeReference, tens, 0, 3, 0x83⟩ := by
  decide

/-- V12. -/
theorem test_exec_ainv :
    seen (step (prog tens [0xA2, 1, 0])) =
      some ⟨.decode, .none, tens ++ [0xDF, 0xCF, 0xBF], 0, 3, 0xA2⟩ := by decide

/-- The range check of AINV on an empty OUT (R151, R263). -/
theorem test_fault_ainv :
    seen (step (prog [] [0xA0, 0, 0])) = some ⟨.fault, .outOfRangeReference, [], 0, 3, 0xA0⟩ := by
  decide

/-- V15: period 3. -/
theorem test_exec_rcpy :
    seen (step (prog [1, 2, 3] [0xC6, 3])) =
      some ⟨.decode, .none, [1, 2, 3, 1, 2, 3, 1, 2, 3, 1], 0, 2, 0xC6⟩ := by decide

/-- F4, F5, F22. -/
theorem test_fault_rcpy :
    seen (step (prog [0x5A] [0xC0, 0])) = some ⟨.fault, .outOfRangeReference, [0x5A], 0, 2, 0xC0⟩ ∧
    seen (step (prog [0x5A] [0xC0, 2])) = some ⟨.fault, .outOfRangeReference, [0x5A], 0, 2, 0xC0⟩ ∧
    seen (step (progCap 4 [1, 2, 3] [0xC3, 9])) =
      some ⟨.fault, .outOfRangeReference, [1, 2, 3], 0, 2, 0xC3⟩ := by decide

/-- V18. -/
theorem test_exec_xlit :
    seen (step (prog [] [0xE0, 2, 0x0A, 0x0B, 0x0C])) =
      some ⟨.decode, .none, [0x0A, 0x0B, 0x0C], 0, 5, 0xE0⟩ := by decide

/-- V20. -/
theorem test_exec_xfill :
    seen (step (prog [] [0xE5, 0, 0x3C])) =
      some ⟨.decode, .none, List.replicate 257 0x3C, 0, 3, 0xE5⟩ := by decide +kernel

/-- F17, F18. -/
theorem test_fault_xfill :
    seen (step (prog [] [0xE4])) = some ⟨.fault, .sourceExhausted, [], 0, 1, 0xE4⟩ ∧
    seen (step (prog [] [0xE4, 5])) = some ⟨.fault, .sourceExhausted, [], 0, 2, 0xE4⟩ := by decide

/-- V22. -/
theorem test_exec_xpair :
    seen (step (prog [] [0xE8, 2, 0x0A, 0x0B])) =
      some ⟨.decode, .none, [0x0A, 0x0B, 0x0A], 0, 4, 0xE8⟩ := by decide

/-- V23. -/
theorem test_exec_xrcpy :
    seen (step (prog [0xDE, 0xAD] [0xF8, 4, 2])) =
      some ⟨.decode, .none, [0xDE, 0xAD, 0xDE, 0xAD, 0xDE, 0xAD, 0xDE], 0, 3, 0xF8⟩ := by decide

/-- S9, and F20: the reserved control byte as the last byte of SRC. -/
theorem test_exec_xrsv :
    seen (step (prog [0x11] [0xEC, 0, 0x10])) = some ⟨.fault, .malformedOpcode, [0x11], 0, 1, 0xEC⟩ ∧
    seen (step (prog [] [0xEC])) = some ⟨.fault, .malformedOpcode, [], 0, 1, 0xEC⟩ := by decide

/-- S0 and V25: COMP_SIZE is relative to SRC_BASE. -/
theorem test_exec_end :
    seen (step (prog [] [0xFF])) = some ⟨.decoded, .none, [], 0, 1, 0xFF⟩ ∧
    (after (step { prog [7] [0xAA, 0xBB, 0x20, 7, 0xFF] with srcBase := 2, srcPos := 2 })).map
      (fun t => (t.compSize, t.srcPos)) = some (2, 3) := by decide

/-- F12, F19: the stream that is not there; CTL keeps its value (F11). -/
theorem test_fault_control_fetch :
    seen (step (prog [] [])) = some ⟨.fault, .sourceExhausted, [], 0, 0, 0x00⟩ ∧
    seen (step { prog [] [0xAA, 0xBB] with srcBase := 5, ctl := 0x31 }) =
      some ⟨.fault, .sourceExhausted, [], 0, 0, 0x31⟩ := by decide

/-! ## TEX, PAL, CMP -/

/-- T4, row 0 and row 3; T5, row 5. -/
theorem test_tilex :
    (tilex tileT4)[0]? = some [15, 3, 5, 1, 6, 2, 4, 8] ∧
    (tilex tileT4)[3]? = some [1, 8, 0, 0, 0, 0, 0, 0] ∧
    (tilex tileT5)[5]? = some [0, 0, 0, 12, 15, 0, 15, 10] := by decide

/-- The PALCONV table. -/
theorem test_palconv :
    palConv 0x7FFF = { r := 248, g := 248, b := 248 } ∧ palConv 0x8000 = { r := 0, g := 0, b := 0 } ∧
    palConv 0x001F = { r := 248, g := 0, b := 0 } ∧ palConv 0x7C00 = { r := 0, g := 0, b := 248 } ∧
    palConv 0x1234 = { r := 160, g := 136, b := 32 } := by decide

/-- PALMAP: ROM and RAM. -/
theorem test_palmap :
    State.reset.palMap 5 = { r := 85, g := 85, b := 85 } ∧
    ({ State.reset with palSel := true, palRam := [0, 0, 0, 0, 0, 0x001F] } : State).palMap 5 =
      { r := 248, g := 0, b := 0 } := by decide

/-- The COMPOSE addresses. -/
theorem test_compose :
    (composeX 15 7, composeY 15 7) = (127, 7) ∧ (composeX 16 0, composeY 16 0) = (0, 8) ∧
    (composeX 17 3, composeY 17 5) = (11, 13) ∧ (composeX 31 7, composeY 31 7) = (127, 15) := by decide

/-- C2, C5, C8: the render start. -/
theorem test_render_start :
    (after (hostMove (.cmd 2) (decoded (List.replicate 512 0)))).map
      (fun t => (t.phase, t.tTiles, t.rasterH)) = some (.render, 16, 8) ∧
    (after (hostMove (.cmd 2) (decoded (List.replicate 32 0)))).map
      (fun t => (t.phase, t.err, t.tTiles)) = some (.fault, .rasterRange, 0) ∧
    (after (hostMove (.cmd 2) { decoded (List.replicate 544 0) with palSel := true })).map
      (fun t => (t.phase, t.err)) = some (.fault, .configurationError) := by decide +kernel

/-- One tile of vector P2: tile 15 is the last of the row and every pixel is (85, 85, 85). -/
theorem test_render_step :
    (after (step { decoded ((List.replicate 256 [0xFF, 0x00]).flatten) with
        phase := .render, tTiles := 16, rasterH := 8, tileIdx := 15 })).map
      (fun t => (t.tileIdx, t.raster.length, Cells.read t.raster (pixelKey 127 7),
        Cells.read t.raster (pixelKey 119 7))) =
      some (16, 64, some { r := 85, g := 85, b := 85 }, none) := by decide +kernel

/-! ## The host -/

/-- R32: START in IDLE only; RESET not in DECODE; unknown values have no effect. -/
theorem test_commands :
    (after (hostMove (.cmd 1) State.reset)).map (·.phase) = some .decode ∧
    after (hostMove (.cmd 1) (decoded [])) = some (decoded []) ∧
    after (hostMove (.cmd 3) (prog [] [0xFF])) = some (prog [] [0xFF]) ∧
    after (hostMove (.cmd 4) State.reset) = some State.reset := by decide

/-- R45, R231: the reset command from FAULT; SRC is not affected. -/
theorem test_reset :
    (after (hostMove (.cmd 3) { prog [1] [0xFF] with phase := .fault, err := .malformedOpcode })) =
      some { State.reset with cfg := (prog [1] [0xFF]).cfg, src := [(0, 0xFF)] } := by decide

/-- R40: little-endian words, the seventeenth push is dropped. -/
theorem test_palette_port :
    paletteWords [0x1F, 0x00, 0xE0, 0x03, 0x55] = [0x001F, 0x03E0] ∧
    (after (hostMove (.palPush 7) { State.reset with palRam := List.replicate 15 0 })).map
      (fun t => (t.palCount, t.palWord 15)) = some (16, 7) ∧
    (after (hostMove (.palPush 7) { State.reset with palRam := List.replicate 16 0 })).map
      (·.palCount) = some 16 := by decide

/-- R33, R46, R76: register writes outside IDLE are ignored, SRC writes are no move. -/
theorem test_host_writes :
    (after (hostMove (.setPalSel 2) State.reset)).map (·.palSel) = some false ∧
    after (hostMove (.setSrcBase 9) (decoded [])) = some (decoded []) ∧
    refusal (hostMove (.writeSrc 0 1) (decoded [])) = some .srcWriteOutsideIdle ∧
    refusal (hostMove (.writeSrc 0 1) State.reset) = some .srcAddressAbsent := by decide

/-- R60, R223, R262: in FAULT the host re-reads the back distance at SRC_BASE + OP_POS + 1 (vector F5); in
DECODE neither SRC nor the palette answers. -/
theorem test_host_reads :
    (after (step (prog [0x5A] [0xC0, 0x02]))).bind (fun t => t.hostReadSrc (t.srcBase + t.opPos + 1))
      = some 0x02 ∧
    (prog [0x5A] [0xC0, 0x02]).hostReadSrc 1 = none ∧
    ({ prog [] [] with palRam := [7] } : State).hostReadPalRam 0 = none ∧
    ({ State.reset with palRam := [7] } : State).hostReadPalRam 0 = some 7 := by decide

/-- R23, R33: a value that four position bits do not hold leaves some value of four bits in SRC_BASE. -/
theorem test_src_base_wide :
    ∃ t, hostMove (.setSrcBase 16)
        { State.reset with cfg := { Config.standard with posW := some 4, outCap := some 9 } } = .next t ∧
      t.srcBase < 16 :=
  ⟨_, rfl, Nat.mod_lt _ (by decide)⟩

/-- The inbox: a host move first, then the agent's turn, then nothing left. -/
theorem test_inbox :
    (after (step { State.reset with inbox := [some (.cmd 1), none] })).map
      (fun t => (t.phase, t.inbox)) = some (.decode, [none]) ∧
    (after (step { prog [] [0xFF] with inbox := [none] })).map (fun t => (t.phase, t.inbox)) =
      some (.decoded, []) := by decide

/-- R43: the packed pixel word. -/
theorem test_pack_pixel : packPixel { r := 0x12, g := 0x34, b := 0x56 } = 0x123456 := by decide

/-- A memory write keeps the canonical form and replaces. -/
theorem test_cells :
    Cells.write [(2, (5 : Byte)), (7, 6)] 4 9 = [(2, 5), (4, 9), (7, 6)] ∧
    Cells.write [(2, (5 : Byte)), (7, 6)] 7 9 = [(2, 5), (7, 9)] ∧
    Memory.wf [(7, (6 : Byte)), (2, 5)] = false := by decide

/-! ## Witnesses: the hypotheses of the obligations can be met -/

theorem fits_of_true {s : State} {n : Nat} (h : capAllows s.cfg (s.out.length + n) = true) : s.Fits n :=
  (fits_iff s n).2 h

theorem not_fits_of_false {s : State} {n : Nat} (h : capAllows s.cfg (s.out.length + n) = false) :
    ¬ s.Fits n := fun hf => by simp [(fits_iff s n).1 hf] at h

/-- One well-formed instruction of each form, at both ends of its range. -/
theorem witness_DecodeOfEncode :
    XSel.standard.wf = true ∧
    ([.lit [0], .lit (List.replicate 32 0xFF), .fill 1 0, .fill 32 0xFF, .pair 1 1 2, .pair 32 1 2,
      .ramp 1 0, .ramp 32 0, .acpy 1 0, .acpy 32 0xFFFF, .ainv 1 0, .ainv 32 0xFFFF, .rcpy 1 0,
      .rcpy 32 0xFF, .xlit [0], .xlit (List.replicate 1024 0), .xfill 1 0, .xfill 1024 0,
      .xpair 1 0 0, .xpair 1024 0 0, .xrcpy 1 0, .xrcpy 1024 0xFF, .xrsv 0xEC, .xrsv 0xFE,
      .endStream] : List Instr).all (fun i => i.wf XSel.standard) = true := by decide +kernel

theorem witness_DecodedBytesAreTheEncoding :
    decode XSel.standard [0xE5, 0, 0x3C, 0x77] = .ok (.xfill 257 0x3C) ∧
    decode XSel.standard [0xFE] = .ok (.xrsv 0xFE) := by decide

/-- Both ends of each family and of each selector. -/
theorem witness_OpcodeMapSelectsTheForm :
    XSel.standard.wf = true ∧
    ([0x00, 0x1F].all fun c : Byte => c.toNat / 32 == 0) ∧
    ([0x20, 0x3F].all fun c : Byte => c.toNat / 32 == 1) ∧
    ([0x40, 0x5F].all fun c : Byte => c.toNat / 32 == 2) ∧
    ([0x60, 0x7F].all fun c : Byte => c.toNat / 32 == 3) ∧
    ([0x80, 0x9F].all fun c : Byte => c.toNat / 32 == 4) ∧
    ([0xA0, 0xBF].all fun c : Byte => c.toNat / 32 == 5) ∧
    ([0xC0, 0xDF].all fun c : Byte => c.toNat / 32 == 6) ∧
    ([0xE0, 0xE3].all fun c : Byte => c.toNat / 32 == 7 && c.toNat / 4 % 8 == 0 && c != 0xFF) ∧
    ([0xE4, 0xE7].all fun c : Byte => c.toNat / 32 == 7 && c.toNat / 4 % 8 == 1 && c != 0xFF) ∧
    ([0xE8, 0xEB].all fun c : Byte => c.toNat / 32 == 7 && c.toNat / 4 % 8 == 2 && c != 0xFF) ∧
    ([0xF8, 0xFB].all fun c : Byte => c.toNat / 32 == 7 && c.toNat / 4 % 8 == 6 && c != 0xFF) ∧
    ([0xEC, 0xF0, 0xF7, 0xFC, 0xFE].all fun c : Byte => c.toNat / 32 == 7 && c != 0xFF &&
      c.toNat / 4 % 8 != 0 && c.toNat / 4 % 8 != 1 && c.toNat / 4 % 8 != 2 &&
      c.toNat / 4 % 8 != 6) := by decide

theorem witness_OnlyControlByteFFIsEnd :
    decode XSel.standard [0xFF, 0x01] = .ok .endStream ∧ 1 ≤ 1 ∧ 32 ≤ 32 := by decide

theorem witness_OperandAssemblyIsExact : 1 ≤ 1 ∧ 1 ≤ 1024 ∧ 1024 ≤ 1024 := by decide

/-- XPAIR in SRC, with the inbox empty and with a turn for DEC. -/
theorem witness_StepRunsTheDecodedInstruction :
    let s := prog [] [0xE8, 2, 0x0A, 0x0B]
    let i := Instr.xpair 3 0x0A 0x0B
    s.phase = .decode ∧ s.cfg.xsel.wf = true ∧ i.wf s.cfg.xsel = true ∧ s.Has i.length ∧
      s.srcBytes s.srcAddr i.length = encode s.cfg.xsel i ∧ s.inbox = [] ∧
      ({ s with inbox := [none] } : State).inbox = none :: [] :=
  ⟨rfl, rfl, rfl, Nat.le_refl 4, rfl, rfl, rfl⟩

/-- A host move, and the agent's turn in a phase of each kind, with the inbox empty and not. -/
theorem witness_StepTakesTheNextTurn :
    ({ State.reset with inbox := [some (.cmd 1), none] } : State).inbox = some (.cmd 1) :: [none] ∧
    ({ prog [] [0xFF] with inbox := [none] } : State).inbox = none :: [] ∧
    (prog [] [0xFF]).inbox = [] ∧ (prog [] [0xFF]).phase = .decode ∧
    ({ decoded [] with phase := .render } : State).phase = .render ∧ (decoded []).phase = .decoded := by
  decide

theorem witness_SerialDecodeStepAgrees :
    (prog [] [0x25, 0x7F]).phase = .decode ∧ (prog [] [0x25, 0x7F]).inbox = [] ∧
    State.reset.phase ≠ .decode ∧ State.reset.inbox = [] ∧ step State.reset = .next State.reset :=
  ⟨rfl, rfl, by decide, rfl, rfl⟩

theorem witness_MissingControlByteExhausts :
    let s := { prog [1] [0x20, 1] with srcPos := 2 }
    s.phase = .decode ∧ s.inbox = [] ∧ s.cfg.srcSize ≤ s.srcBase + s.srcPos := by decide

theorem witness_StreamPositionAdvance :
    let s := prog [] [0x25, 0x7F]
    let u := prog [] [0x25]
    s.phase = .decode ∧ s.inbox = [] ∧ s.fetch = .ok (.fill 6 0x7F) ∧ (after (step s)).isSome = true ∧
    u.phase = .decode ∧ u.inbox = [] ∧ u.fetch = .error (.missingOperands 0x25) ∧
      (after (step u)).isSome = true := by decide

/-- A run of one, one of thirty-two that just fits, one that does not; the bytes there and one short. -/
theorem witness_LitAppendsItsBytes :
    (prog [] []).Fits 1 ∧ (progCap 32 [] []).Fits 32 ∧ ¬ (progCap 31 [] []).Fits 32 ∧
    (prog [] [0x01, 5, 6]).AtControl 0x01 ∧ (prog [] [0x01, 5, 6]).Has (1 + (1 + 1)) ∧
    (prog [] [0x01, 5]).AtControl 0x01 ∧ ¬ (prog [] [0x01, 5]).Has (1 + (1 + 1)) :=
  ⟨fits_of_true rfl, fits_of_true rfl, not_fits_of_false rfl, ⟨rfl, rfl, by decide, rfl⟩,
    Nat.le_refl 3, ⟨rfl, rfl, by decide, rfl⟩, by unfold State.Has; decide⟩

theorem witness_FillRepeatsItsByte :
    (progCap 32 [] []).Fits 32 ∧ ¬ (progCap 31 [] []).Fits 32 ∧
    (prog [] [0x20, 5]).AtControl 0x20 ∧ (prog [] [0x20, 5]).Has 2 ∧
    (prog [] [0x3F]).AtControl 0x3F ∧ ¬ (prog [] [0x3F]).Has 2 :=
  ⟨fits_of_true rfl, not_fits_of_false rfl, ⟨rfl, rfl, by decide, rfl⟩, Nat.le_refl 2,
    ⟨rfl, rfl, by decide, rfl⟩, by unfold State.Has; decide⟩

theorem witness_PairAlternatesWithinTheRun :
    (progCap 32 [] []).Fits 32 ∧ ¬ (progCap 31 [] []).Fits 32 ∧
    (prog [] [0x40, 5, 6]).AtControl 0x40 ∧ (prog [] [0x40, 5, 6]).Has 3 ∧
    (prog [] [0x5F, 5]).AtControl 0x5F ∧ ¬ (prog [] [0x5F, 5]).Has 3 :=
  ⟨fits_of_true rfl, not_fits_of_false rfl, ⟨rfl, rfl, by decide, rfl⟩, Nat.le_refl 3,
    ⟨rfl, rfl, by decide, rfl⟩, by unfold State.Has; decide⟩

theorem witness_RampCountsUpModulo256 :
    (progCap 32 [] []).Fits 32 ∧ ¬ (progCap 31 [] []).Fits 32 ∧
    (prog [] [0x60, 5]).AtControl 0x60 ∧ (prog [] [0x60, 5]).Has 2 ∧
    (prog [] [0x7F]).AtControl 0x7F ∧ ¬ (prog [] [0x7F]).Has 2 :=
  ⟨fits_of_true rfl, not_fits_of_false rfl, ⟨rfl, rfl, by decide, rfl⟩, Nat.le_refl 2,
    ⟨rfl, rfl, by decide, rfl⟩, by unfold State.Has; decide⟩

/-- Out of range by one byte, in range to the last byte, and in range with and without room. -/
theorem witness_AcpyCopiesTheSlice :
    (prog tens []).out.length < (1 : Half).toNat + 4 ∧ (0 : Half).toNat + 4 ≤ (prog tens []).out.length ∧
    (progCap 8 tens []).Fits 4 ∧ ¬ (progCap 7 tens []).Fits 4 ∧
    (prog [] [0x80, 5, 6]).AtControl 0x80 ∧ (prog [] [0x80, 5, 6]).Has 3 ∧
    (prog [] [0x9F, 5]).AtControl 0x9F ∧ ¬ (prog [] [0x9F, 5]).Has 3 :=
  ⟨by decide, by decide, fits_of_true rfl, not_fits_of_false rfl, ⟨rfl, rfl, by decide, rfl⟩,
    Nat.le_refl 3, ⟨rfl, rfl, by decide, rfl⟩, by unfold State.Has; decide⟩

theorem witness_AinvCopiesTheComplement :
    (prog tens []).out.length < (1 : Half).toNat + 4 ∧ (0 : Half).toNat + 4 ≤ (prog tens []).out.length ∧
    (progCap 8 tens []).Fits 4 ∧ ¬ (progCap 7 tens []).Fits 4 ∧
    (prog [] [0xA0, 5, 6]).AtControl 0xA0 ∧ (prog [] [0xA0, 5, 6]).Has 3 ∧
    (prog [] [0xBF, 5]).AtControl 0xBF ∧ ¬ (prog [] [0xBF, 5]).Has 3 :=
  ⟨by decide, by decide, fits_of_true rfl, not_fits_of_false rfl, ⟨rfl, rfl, by decide, rfl⟩,
    Nat.le_refl 3, ⟨rfl, rfl, by decide, rfl⟩, by unfold State.Has; decide⟩

/-- b = 0, b = L0 + 1, and b = L0 with and without room. -/
theorem witness_RcpyReadsWhatItAppends :
    ((0 : Byte).toNat = 0 ∨ (prog tens []).out.length < (0 : Byte).toNat) ∧
    ((5 : Byte).toNat = 0 ∨ (prog tens []).out.length < (5 : Byte).toNat) ∧
    (1 ≤ (4 : Byte).toNat ∧ (4 : Byte).toNat ≤ (prog tens []).out.length) ∧
    (progCap 36 tens []).Fits 32 ∧ ¬ (progCap 35 tens []).Fits 32 ∧
    (prog [] [0xC0, 5]).AtControl 0xC0 ∧ (prog [] [0xC0, 5]).Has 2 ∧
    (prog [] [0xDF]).AtControl 0xDF ∧ ¬ (prog [] [0xDF]).Has 2 :=
  ⟨by decide, by decide, by decide, fits_of_true rfl, not_fits_of_false rfl,
    ⟨rfl, rfl, by decide, rfl⟩, Nat.le_refl 2, ⟨rfl, rfl, by decide, rfl⟩,
    by unfold State.Has; decide⟩

/-- No count byte; the count byte and all data; one data byte short; and the control bytes' fields. -/
theorem witness_XlitAppendsItsBytes :
    (progCap 1024 [] []).Fits 1024 ∧ ¬ (progCap 1023 [] []).Fits 1024 ∧
    (prog [] [0xE3]).AtControl 0xE3 ∧ ¬ (prog [] [0xE3]).Has 2 ∧
    (prog [] [0xE0, 1, 5, 6]).AtControl 0xE0 ∧ (prog [] [0xE0, 1, 5, 6]).Has 2 ∧
    (prog [] [0xE0, 1, 5, 6]).Has (2 + 2) ∧ ¬ (prog [] [0xE0, 1, 5]).Has (2 + 2) ∧
    (2 : Nat) = (0xE0 : Byte).toNat % 4 * 256 + ((prog [] [0xE0, 1, 5, 6]).operand 0).toNat + 1 ∧
    (prog [] []).cfg.xsel.wf = true ∧ (0xE0 : Byte) ≠ 0xFF ∧ (0xE0 : Byte).toNat / 32 = 7 ∧
    (0xE0 : Byte).toNat / 4 % 8 = (prog [] []).cfg.xsel.literal.toNat :=
  ⟨fits_of_true (by decide +kernel), not_fits_of_false (by decide +kernel), ⟨rfl, rfl, by decide, rfl⟩,
    by unfold State.Has; decide, ⟨rfl, rfl, by decide, rfl⟩, by unfold State.Has; decide,
    Nat.le_refl 4, by unfold State.Has; decide, by decide, by decide, by decide, by decide, by decide⟩

theorem witness_XfillRepeatsItsByte :
    (progCap 1024 [] []).Fits 1024 ∧ ¬ (progCap 1023 [] []).Fits 1024 ∧
    (prog [] [0xE4, 0, 5]).AtControl 0xE4 ∧ (prog [] [0xE4, 0, 5]).Has 3 ∧
    (prog [] [0xE7, 0xFF]).AtControl 0xE7 ∧ ¬ (prog [] [0xE7, 0xFF]).Has 3 ∧
    (prog [] []).cfg.xsel.wf = true ∧ (0xE7 : Byte) ≠ 0xFF ∧ (0xE7 : Byte).toNat / 32 = 7 ∧
    (0xE7 : Byte).toNat / 4 % 8 = (prog [] []).cfg.xsel.fill.toNat :=
  ⟨fits_of_true (by decide +kernel), not_fits_of_false (by decide +kernel), ⟨rfl, rfl, by decide, rfl⟩, Nat.le_refl 3,
    ⟨rfl, rfl, by decide, rfl⟩, by unfold State.Has; decide, by decide, by decide, by decide, by decide⟩

theorem witness_XpairAlternatesWithinTheRun :
    (progCap 1024 [] []).Fits 1024 ∧ ¬ (progCap 1023 [] []).Fits 1024 ∧
    (prog [] [0xE8, 0, 5, 6]).AtControl 0xE8 ∧ (prog [] [0xE8, 0, 5, 6]).Has 4 ∧
    (prog [] [0xEB, 0xFF, 5]).AtControl 0xEB ∧ ¬ (prog [] [0xEB, 0xFF, 5]).Has 4 ∧
    (prog [] []).cfg.xsel.wf = true ∧ (0xEB : Byte) ≠ 0xFF ∧ (0xEB : Byte).toNat / 32 = 7 ∧
    (0xEB : Byte).toNat / 4 % 8 = (prog [] []).cfg.xsel.pair.toNat :=
  ⟨fits_of_true (by decide +kernel), not_fits_of_false (by decide +kernel), ⟨rfl, rfl, by decide, rfl⟩, Nat.le_refl 4,
    ⟨rfl, rfl, by decide, rfl⟩, by unfold State.Has; decide, by decide, by decide, by decide, by decide⟩

theorem witness_XrcpyReadsWhatItAppends :
    ((0 : Byte).toNat = 0 ∨ (prog tens []).out.length < (0 : Byte).toNat) ∧
    ((5 : Byte).toNat = 0 ∨ (prog tens []).out.length < (5 : Byte).toNat) ∧
    (1 ≤ (4 : Byte).toNat ∧ (4 : Byte).toNat ≤ (prog tens []).out.length) ∧
    (progCap 1028 tens []).Fits 1024 ∧ ¬ (progCap 1027 tens []).Fits 1024 ∧
    (prog [] [0xF8, 0, 5]).AtControl 0xF8 ∧ (prog [] [0xF8, 0, 5]).Has 3 ∧
    (prog [] [0xFB, 0xFF]).AtControl 0xFB ∧ ¬ (prog [] [0xFB, 0xFF]).Has 3 ∧
    (prog [] []).cfg.xsel.wf = true ∧ (0xFB : Byte) ≠ 0xFF ∧ (0xFB : Byte).toNat / 32 = 7 ∧
    (0xFB : Byte).toNat / 4 % 8 = (prog [] []).cfg.xsel.rel.toNat :=
  ⟨by decide, by decide, by decide, fits_of_true (by decide +kernel), not_fits_of_false (by decide +kernel),
    ⟨rfl, rfl, by decide, rfl⟩, Nat.le_refl 3, ⟨rfl, rfl, by decide, rfl⟩,
    by unfold State.Has; decide, by decide, by decide, by decide, by decide⟩

theorem witness_XrsvRaisesMalformedOpcode :
    (prog [] [0xFE]).AtControl 0xFE ∧ (0xFE : Byte).toNat / 32 = 7 ∧ (0xFE : Byte) ≠ 0xFF ∧
    (0xFE : Byte).toNat / 4 % 8 ≠ XSel.standard.literal.toNat ∧
    (0xFE : Byte).toNat / 4 % 8 ≠ XSel.standard.fill.toNat ∧
    (0xFE : Byte).toNat / 4 % 8 ≠ XSel.standard.pair.toNat ∧
    (0xFE : Byte).toNat / 4 % 8 ≠ XSel.standard.rel.toNat ∧ (prog [] [0xFE]).cfg.xsel = XSel.standard :=
  ⟨⟨rfl, rfl, by decide, rfl⟩, by decide, by decide, by decide, by decide, by decide, by decide, rfl⟩

theorem witness_EndWritesCompSize : (prog [7] [0xFF]).AtControl 0xFF := ⟨rfl, rfl, by decide, rfl⟩

/-- A completion, a fault and the end, each with an address outside the run. -/
theorem witness_InstructionFrame :
    (after (exec (.fill 3 1) (prog tens []))).map (fun t => (t.phase, t.err)) = some (.decode, .none) ∧
    (after (exec (.xrsv 0xEC) (prog tens []))).map (·.phase) = some .fault ∧
    (after (exec .endStream (prog tens []))).map (·.phase) = some .decoded ∧
    3 < (prog tens []).out.length ∧ (prog tens []).out.length + runLength (.fill 3 1) ≤ 7 := by decide

theorem witness_OpcodeIsAllOrNothing :
    (prog tens []).phase = .decode ∧
    (after (exec (.ramp 32 0) (prog tens []))).map (·.phase) = some .decode ∧
    (after (exec (.acpy 32 0) (prog tens []))).map (·.phase) = some .fault := by decide

theorem witness_RelativeCopyClosedForm :
    1 ≤ (4 : Byte).toNat ∧ (4 : Byte).toNat ≤ (prog tens []).out.length ∧ (prog tens []).Fits 9 ∧
    (after (exec (.rcpy 9 4) (prog tens []))).isSome = true ∧
    (after (exec (.xrcpy 9 4) (prog tens []))).isSome = true :=
  ⟨by decide, by decide, fits_of_true rfl, by decide, by decide⟩

theorem witness_AbsoluteCopyNeverOverlaps :
    (0 : Half).toNat + 4 ≤ (prog tens []).out.length ∧ (prog tens []).Fits 4 ∧
    (after (exec (.acpy 4 0) (prog tens []))).isSome = true ∧
    (after (exec (.ainv 4 0) (prog tens []))).isSome = true :=
  ⟨by decide, fits_of_true rfl, by decide, by decide⟩

theorem witness_ShortAndExtendedFormsAgree :
    ((Instr.lit [1] = .lit [1] ∧ Instr.xlit [1] = .xlit [1])) ∧
    (Instr.rcpy 32 1 = .rcpy 32 1 ∧ Instr.xrcpy 32 1 = .xrcpy 32 1) := by decide

theorem witness_CopyAsFirstOpcodeFaults :
    (prog [] []).out = [] ∧ 1 ≤ 1 ∧ Instr.xrcpy 1 0 = .xrcpy 1 0 := ⟨rfl, by decide, rfl⟩

theorem witness_MeaningAppendsWhatIsProduced :
    Instr.rcpy 3 4 ≠ .endStream ∧ produced tens (.rcpy 3 4) = some [0x10, 0x20, 0x30] ∧
    (progCap 7 tens []).Fits 3 ∧ ¬ (progCap 6 tens []).Fits 3 ∧ produced tens (.rcpy 3 5) = none ∧
    produced tens (.xrsv 0xEC) = none :=
  ⟨by decide, by decide, fits_of_true rfl, not_fits_of_false rfl, by decide, by decide⟩

theorem witness_FaultEntryIsTheWholeEffect :
    (prog [1] []).phase = .decode ∧ (prog [1] []).inbox = [] ∧
    (after (step (prog [1] []))).map (·.phase) = some .fault ∧
    (after (step (prog [1] [0xEC]))).map (·.phase) = some .fault ∧
    (prog [1] []).cfg.srcSize ≤ (prog [1] []).srcBase + (prog [1] []).srcPos ∧
    (prog [1] [0xEC]).srcBase + (prog [1] [0xEC]).srcPos < (prog [1] [0xEC]).cfg.srcSize ∧
    (decoded (List.replicate 32 0)).phase = .decoded ∧
    (after (hostMove (.cmd 2) (decoded (List.replicate 32 0)))).map (·.phase) = some .fault := by decide

/-- One state for each check, in the order of R230. -/
theorem witness_FaultPriority :
    ((prog [] []).phase = .decode ∧ (prog [] []).inbox = [] ∧ (prog [] []).cfg.srcSize ≤ 0) ∧
    ((prog [] [0xEC]).AtControl 0xEC ∧ reservedControl (prog [] [0xEC]).cfg.xsel 0xEC = true) ∧
    ((prog [] [0xE4, 5]).AtControl 0xE4 ∧
      (prog [] [0xE4, 5]).fetch = .error (.missingOperands 0xE4)) ∧
    ((progCap 4 [1, 2, 3] [0xC3, 9]).fetch = .ok (.rcpy 4 9) ∧
      produced [1, 2, 3] (.rcpy 4 9) = none) ∧
    ((progCap 4 [1, 2, 3] [0x21, 9]).fetch = .ok (.fill 2 9) ∧
      produced [1, 2, 3] (.fill 2 9) = some [9, 9] ∧ ¬ (progCap 4 [1, 2, 3] [0x21, 9]).Fits 2) ∧
    ((decoded []).phase = .decoded ∧ ({ decoded [] with palSel := true } : State).palSel = true ∧
      (decoded []).palRam.length < 16) ∧
    (¬ ((decoded (List.replicate 32 0)).palSel = true ∧ (decoded []).palRam.length < 16) ∧
      (decoded (List.replicate 32 0)).out.length / 32 % 16 ≠ 0) :=
  ⟨by decide, ⟨⟨rfl, rfl, by decide, rfl⟩, by decide⟩, ⟨⟨rfl, rfl, by decide, rfl⟩, by decide⟩,
    by decide, ⟨by decide, by decide, not_fits_of_false rfl⟩, by decide, by decide⟩

theorem witness_FaultIsLeftOnlyByReset :
    let s := { prog [1] [0xEC] with phase := .fault, err := .malformedOpcode, inbox := [some (.cmd 3)] }
    s.phase = .fault ∧ (after (step s)).map (·.phase) = some .idle ∧
    (after (step { s with inbox := [some (.cmd 1)] })).map (·.phase) = some .fault := by decide

theorem witness_TileRecordIsThirtyTwoBytes :
    0 < (List.replicate 32 (0 : Byte)).length / 32 ∧ 31 < 32 ∧
    (List.replicate 63 (0 : Byte)).length / 32 ≤ 1 := by decide

theorem witness_PaletteMapFollowsPalSel :
    State.reset.palSel = false ∧
    (let s := { State.reset with palSel := true, palRam := List.replicate 16 0x1234 }
     s.palSel = true ∧ s.palRam[(15 : PixelIndex).toNat]? = some 0x1234) := by decide

theorem witness_RenderStartChecksThenLatches :
    (decoded []).phase = .decoded ∧
    ({ decoded [] with palSel := true, palRam := List.replicate 15 0 } : State).palRam.length < 16 ∧
    ¬ ((decoded (List.replicate 544 0)).palSel = true ∧ (decoded []).palRam.length < 16) ∧
    (decoded (List.replicate 544 0)).out.length / 32 % 16 ≠ 0 ∧
    (decoded (List.replicate 543 0)).out.length / 32 % 16 = 0 := by decide +kernel

/-- The last tile of a raster of eight rows, and the end of the render. -/
theorem witness_RenderStepComposesOneTile :
    let s := { decoded (List.replicate 512 0) with
      phase := .render, tTiles := 16, rasterH := 8, tileIdx := 15 }
    s.phase = .render ∧ s.inbox = [] ∧ s.tileIdx ≠ s.tTiles ∧
    (tileRecord s.out s.tileIdx).isSome = true ∧ s.tileIdx / 16 * 8 + 7 < s.rasterH ∧
    119 < 128 ∧ tileAt 119 7 ≠ s.tileIdx ∧
    ({ s with tileIdx := 16 } : State).tileIdx = s.tTiles := by decide +kernel

theorem witness_RenderRunProducesTheRaster :
    let s := { decoded (List.replicate 512 0) with inbox := [some (.cmd 2)] }
    s.phase = .decoded ∧ s.inbox = [some (.cmd 2)] ∧ ¬ (s.palSel = true ∧ s.palRam.length < 16) ∧
    s.out.length / 32 % 16 = 0 ∧ 127 < 128 ∧ 7 < s.out.length / 64 := by decide +kernel

theorem witness_TilesMayBeRenderedInAnyOrder :
    (15 : Nat) ≠ 16 ∧ Cells.wf ([(5, palRom 3)] : RasterMem) = true := by decide

theorem witness_CommandsInTheirPhases :
    State.reset.phase = .idle ∧ (decoded []).phase = .decoded ∧ (prog [] []).phase = .decode ∧
    (3 : Nat) < 4 := by decide

theorem witness_ResetGivesTheResetState :
    (decoded []).phase ≠ .decode ∧ (decoded []).phase ≠ .render ∧ (prog [] []).phase = .decode := by
  decide

theorem witness_PalettePushFillsSixteenEntries :
    ({ State.reset with palRam := List.replicate 15 0 } : State).palCount < 16 ∧
    State.reset.phase = .idle ∧ 14 < ({ State.reset with palRam := List.replicate 15 0 } : State).palCount ∧
    (decoded []).phase ≠ .idle ∧ 16 ≤ ({ State.reset with palRam := List.replicate 16 0 } : State).palCount ∧
    0 < ([0x1F, 0x00, 0x55] : List Byte).length / 2 := by decide

theorem witness_HostWritesOnlyInIdle :
    State.reset.phase = .idle ∧
    (∀ w, ({ State.reset with cfg := { Config.standard with posW := some 4, outCap := some 9 } } :
      State).cfg.posW = some w → 15 < 2 ^ w) ∧
    ({ State.reset with cfg := { Config.standard with posW := some 4, outCap := some 9 } } :
      State).cfg.posW = some 4 ∧ 2 ^ 4 ≤ 16 ∧
    0 < ({ State.reset with cfg := { Config.standard with srcSize := 1 } } : State).cfg.srcSize ∧
    State.reset.cfg.srcSize ≤ 0 ∧ (decoded []).phase ≠ .idle :=
  ⟨rfl, fun w h => by cases h; decide, rfl, by decide, by decide, by decide, by decide⟩

/-- A phase that grants the reads, with a palette word and a pixel to read, and one that does not. -/
theorem witness_HostReadsByPhase :
    let s := { decoded tens with
      phase := .rendered, palRam := List.replicate 16 7, rasterH := 8, raster := [(1023, palRom 3)],
      cfg := { Config.standard with srcSize := 4 } }
    (s.phase = .idle ∨ s.phase = .decoded ∨ s.phase = .rendered ∨ s.phase = .fault) ∧
    3 < s.cfg.srcSize ∧ s.cfg.srcSize ≤ 4 ∧ 15 < 16 ∧ s.palRam[15]? = some 7 ∧
    127 < 128 ∧ 7 < s.rasterH ∧ s.rasterH ≤ 8 ∧
    ((prog [] []).phase = .decode ∨ (prog [] []).phase = .render) ∧ (prog [] []).phase ≠ .rendered := by
  decide

/-- A step of each kind: START, END, a fault, RENDER, the end of a render, RESET. -/
theorem witness_PhaseTransitions :
    (after (step { State.reset with inbox := [some (.cmd 1)] })).map (·.phase) = some .decode ∧
    (after (step (prog [] [0xFF]))).map (·.phase) = some .decoded ∧
    (after (step (prog [] [0xEC]))).map (·.phase) = some .fault ∧
    (after (step { decoded [] with inbox := [some (.cmd 2)] })).map (·.phase) = some .render ∧
    (after (step { decoded [] with phase := .render })).map (·.phase) = some .rendered ∧
    (after (step { decoded [] with inbox := [some (.cmd 3)] })).map (·.phase) = some .idle := by decide

theorem witness_ErrIsWrittenByFaultEntryOnly :
    ((prog [] [0xEC]).err ≠ .none ↔ (prog [] [0xEC]).phase = .fault) ∧
    (after (step (prog [] [0xEC]))).map (·.err) = some .malformedOpcode := by decide

theorem witness_OutIsAppendOnly :
    (after (step (prog tens [0x20, 1]))).map (·.out) = some (tens ++ [1]) ∧
    (after (step { decoded tens with inbox := [some .hardReset] })).map (·.out) = some [] := by decide

theorem witness_LaunchDataIsWrittenByTheHostInIdle :
    (after (step { State.reset with
        cfg := { Config.standard with srcSize := 3 }, inbox := [some (.writeSrc 2 9)] })).map (·.src)
      = some [(2, 9)] ∧
    (after (step { State.reset with inbox := [some (.setPalSel 1)] })).map (·.palSel) = some true := by
  decide

/-- A state in the middle of a decode meets the invariant, and it has a step. -/
theorem witness_EveryStepKeepsInv :
    Inv { prog tens [0x00, 0x10, 0xC0, 0x01, 0xFF] with srcPos := 2 } ∧
    (after (step { prog tens [0x00, 0x10, 0xC0, 0x01, 0xFF] with srcPos := 2 })).isSome = true :=
  ⟨by constructor <;> decide, by decide⟩

/-- So does one in the middle of a render, whose step answers a next state, and whose host write of SRC is
refused; and one in IDLE whose host write past SRC_SIZE is. -/
theorem witness_NoStepStopsTheMachine :
    let s := { decoded (List.replicate 512 0) with
      cfg := { Config.standard with srcSize := 9 }
      phase := .render, tTiles := 16, rasterH := 8, tileIdx := 15, raster := [(5, palRom 3)] }
    let w := { s with inbox := [some (.writeSrc 0 1)] }
    let u := { State.reset with inbox := [some (.writeSrc 0 1)] }
    Inv s ∧ (after (step s)).isSome = true ∧
    Inv w ∧ refusal (step w) = some .srcWriteOutsideIdle ∧
    Inv u ∧ refusal (step u) = some .srcAddressAbsent :=
  ⟨by constructor <;> decide +kernel, by decide +kernel, by constructor <;> decide +kernel, by decide +kernel,
    by constructor <;> decide +kernel, by decide +kernel⟩

theorem witness_NoPositionWraps :
    let c : Config := { Config.standard with posW := some 4, outCap := some 15, srcSize := 15 }
    Inv { prog tens [] with cfg := c } ∧ c.wf = true ∧ c.posW = some 4 :=
  ⟨by constructor <;> decide, by decide, rfl⟩

theorem witness_DecodeEnds :
    (prog [] [0x00, 0x10, 0xFF]).phase = .decode ∧ (prog [] [0x00, 0x10, 0xFF]).inbox = [] ∧
    (after (core.run 1 (prog [] [0x00, 0x10, 0xFF]))).map (·.phase) = some .decode ∧
    (after (core.run 2 (prog [] [0x00, 0x10, 0xFF]))).map (·.phase) = some .decoded := by decide

/-- The same stream at address 0 and at address 2, behind two other bytes and under another palette. -/
theorem witness_DecodeDependsOnTheStreamOnly :
    let s := prog [] [0x20, 7, 0xFF]
    let u := { prog [] [0xAA, 0xBB, 0x20, 7, 0xFF] with srcBase := 2, palSel := true }
    s.phase = .decode ∧ u.phase = .decode ∧ s.inbox = [] ∧ u.inbox = [] ∧ s.cfg.xsel = u.cfg.xsel ∧
    s.cfg.outCap = u.cfg.outCap ∧ s.out = u.out ∧ s.srcPos = u.srcPos ∧ s.ctl = u.ctl ∧
    s.opPos = u.opPos ∧ s.compSize = u.compSize ∧ s.err = u.err ∧
    s.cfg.srcSize - s.srcBase = u.cfg.srcSize - u.srcBase ∧
    ∀ k, s.srcPos ≤ k → k < s.cfg.srcSize - s.srcBase →
      s.srcByte (s.srcBase + k) = u.srcByte (u.srcBase + k) := by
  refine ⟨rfl, rfl, rfl, rfl, rfl, rfl, rfl, rfl, rfl, rfl, rfl, rfl, rfl, ?_⟩
  intro k _ hk
  have hk' : k < 3 := hk
  interval_cases k <;> rfl

/-- The stream of vector P1. -/
theorem witness_EncodedStreamDecodesToItsBytes :
    let is : List Instr := [.lit [1, 2, 3], .rcpy 5 3, .ramp 4 0xFE, .ainv 2 1, .acpy 3 10]
    let s := prog [] [0x02, 1, 2, 3, 0xC4, 3, 0x63, 0xFE, 0xA1, 1, 0, 0x82, 0x0A, 0, 0xFF]
    s.phase = .decode ∧ s.inbox = [] ∧ s.cfg.xsel.wf = true ∧ (∀ i ∈ is, i.wf s.cfg.xsel = true) ∧
    s.Has ((is.flatMap (encode s.cfg.xsel)).length + 1) ∧
    s.srcBytes s.srcAddr ((is.flatMap (encode s.cfg.xsel)).length + 1)
      = is.flatMap (encode s.cfg.xsel) ++ [0xFF#8] ∧
    producedAll s.cfg is s.out =
      some [1, 2, 3, 1, 2, 3, 1, 2, 0xFE, 0xFF, 0, 1, 0xFD, 0xFC, 0, 1, 0xFD] :=
  ⟨rfl, rfl, by decide, by decide, by unfold State.Has; decide, by decide, by decide⟩

end Sys2Proof.Tests
end

section
/-! SUPPORT. The scope (00_scope): how large a position can grow, and whose turn a step takes. -/

namespace Sys2Proof.Machine

/-! ### Positions and POS_W (R7, D4) -/

theorem posHolds_iff (c : Config) (v : Nat) :
    posHolds c v = true ↔ ∀ w, c.posW = some w → v < 2 ^ w := by
  unfold posHolds
  cases c.posW <;> simp

/-- Admissible parameters with a finite POS_W have SRC_SIZE and a finite OUT_CAP below 2^POS_W (D4). -/
theorem sizes_lt_of_wf {c : Config} {w : Nat} (hc : c.wf = true) (hw : c.posW = some w) :
    c.srcSize < 2 ^ w ∧ ∃ cap, c.outCap = some cap ∧ cap < 2 ^ w := by
  simp only [Config.wf, Config.posFits, hw, Bool.and_eq_true, decide_eq_true_eq] at hc
  obtain ⟨-, hsrc, hcap⟩ := hc
  refine ⟨hsrc, ?_⟩
  cases ho : c.outCap with
  | none => simp [ho] at hcap
  | some cap => exact ⟨cap, rfl, by simpa [ho] using hcap⟩

namespace Inv

variable {s : State}

theorem srcPos_le_srcSize (h : Inv s) : s.srcPos ≤ s.cfg.srcSize :=
  h.pos_le.trans (Nat.sub_le _ _)

/-- COMP_SIZE is 0 or OP_POS: the phase says which, and in FAULT the cause (R28, R228). -/
theorem compSize_le_opPos (h : Inv s) : s.compSize ≤ s.opPos := by
  have zero (hz : s.compSize = 0) : s.compSize ≤ s.opPos := hz ▸ Nat.zero_le _
  cases hp : s.phase with
  | idle =>
    obtain ⟨-, -, -, -, hz⟩ := h.idle_fresh hp
    exact zero hz
  | decode => exact zero (h.comp_zero (.inl hp))
  | decoded | render | rendered => exact (h.comp_set (by simp [hp])).1.le
  | fault =>
    cases he : s.err with
    | none => exact absurd he (h.err_iff.mpr hp)
    | sourceExhausted | malformedOpcode | outOfRangeReference | outputOverflow =>
      exact zero (h.comp_zero (by simp [he]))
    | configurationError | rasterRange => exact (h.comp_set (by simp [he])).1.le
    | formatViolation => exact absurd he h.err_raised

/-- The render latches are clear, or quotients of OUT_LEN with TILE_IDX up to T_TILES (R41, R42). -/
theorem latches_le_outLen (h : Inv s) :
    s.tileIdx ≤ s.outLen ∧ s.tTiles ≤ s.outLen ∧ s.rasterH ≤ s.outLen := by
  by_cases hp : s.phase = .render ∨ s.phase = .rendered
  · obtain ⟨htiles, hrows, -, hidx, -⟩ := h.latches_set hp
    omega
  · obtain ⟨hidx, htiles, hrows, -⟩ := h.latches_clear (fun e => hp (.inl e)) (fun e => hp (.inr e))
    omega

/-- Where POS_W is finite, OUT_CAP bounds OUT_LEN below 2^POS_W (D4, R224). -/
theorem outLen_lt (h : Inv s) {w : Nat} (hc : s.cfg.wf = true) (hw : s.cfg.posW = some w) :
    s.outLen < 2 ^ w := by
  obtain ⟨-, cap, hcap, hlt⟩ := sizes_lt_of_wf hc hw
  exact ((capAllows_iff _ _).mp h.cap cap hcap).trans_lt hlt

end Inv

/-- Settles O56: positions in SRC are bounded by SRC_SIZE, those in OUT and the latches by OUT_CAP. -/
theorem noPositionWraps : Obligations.NoPositionWraps := by
  intro s w h hc hw
  have hsrc : s.srcPos < 2 ^ w := h.srcPos_le_srcSize.trans_lt (sizes_lt_of_wf hc hw).1
  have hop : s.opPos < 2 ^ w := h.op_le.trans_lt hsrc
  have hout : s.outLen < 2 ^ w := h.outLen_lt hc hw
  obtain ⟨hidx, htiles, hrows⟩ := h.latches_le_outLen
  exact ⟨(posHolds_iff _ _).mp h.base_fits w hw, hsrc, hop, hout,
    h.compSize_le_opPos.trans_lt hop, hidx.trans_lt hout, htiles.trans_lt hout, hrows.trans_lt hout⟩

/-! ### Turns (R5, R6, R30) -/

theorem agentTurn_of_decode {s : State} (hp : s.phase = .decode) : agentTurn s = decStep s := by
  simp [agentTurn, hp]

theorem agentTurn_of_render {s : State} (hp : s.phase = .render) : agentTurn s = renStep s := by
  simp [agentTurn, hp]

/-- Where neither DEC nor REN is enabled, the agent's turn changes nothing (R30). -/
theorem agentTurn_of_neither {s : State}
    (hp : s.phase = .idle ∨ s.phase = .decoded ∨ s.phase = .rendered ∨ s.phase = .fault) :
    agentTurn s = .next s := by
  obtain hp | hp | hp | hp := hp <;> simp [agentTurn, hp]

theorem step_of_hostMove {s : State} {m : HostMove} {rest : List (Option HostMove)}
    (h : s.inbox = some m :: rest) : step s = hostMove m { s with inbox := rest } := by
  simp [step, h]

/-- An empty inbox is one that holds nothing but turns of the enabled agent. -/
theorem step_of_agentTurn {s : State} {rest : List (Option HostMove)}
    (h : s.inbox = none :: rest ∨ (s.inbox = [] ∧ rest = [])) :
    step s = agentTurn { s with inbox := rest } := by
  obtain h | ⟨h, rfl⟩ := h
  · simp [step, h]
  · have unchanged : ({ s with inbox := [] } : State) = s := by rw [← h]
    simp [step, h, unchanged]

/-- Settles O60: a step is the head of the inbox, and the agent's turn is the phase's agent. -/
theorem stepTakesTheNextTurn : Obligations.StepTakesTheNextTurn := by
  refine ⟨fun _ _ _ h => step_of_hostMove h, fun s rest h => ?_⟩
  rw [step_of_agentTurn h]
  exact ⟨fun hp => agentTurn_of_decode hp, fun hp => agentTurn_of_render hp,
    fun hp => agentTurn_of_neither hp⟩

end Sys2Proof.Machine
end

section
/-! SUPPORT. The invariant (10_state): one lemma for each update of the state a step makes. Each names only
the fields of the invariant the update can touch; the others are those of the state before. -/

namespace Sys2Proof.Machine

/-- The raster addresses of tile `i` lie below row RASTER_H where its last row does (R214). -/
theorem tileWrites_below {s : State} {i h : Nat} (t : Tile) (hi : composeY i 7 < h) :
    ∀ c ∈ tileWrites s i t, c.1 < 128 * h := by
  intro c hc
  simp only [tileWrites, List.mem_flatMap, List.mem_map] at hc
  obtain ⟨y, -, x, -, rfl⟩ := hc
  simp only [composeY, composeX, pixelKey] at hi ⊢
  omega

/-! ### State.appends and State.raises -/

section
variable (s : State) (c : Byte) (len : Nat) (new : List Byte) (e : ErrCode)

@[simp] theorem appends_cfg : (s.appends c len new).cfg = s.cfg := rfl
@[simp] theorem appends_out : (s.appends c len new).out = s.out ++ new := rfl
@[simp] theorem appends_phase : (s.appends c len new).phase = s.phase := rfl
@[simp] theorem appends_err : (s.appends c len new).err = s.err := rfl
@[simp] theorem raises_phase : (s.raises c len e).phase = .fault := rfl
@[simp] theorem raises_err : (s.raises c len e).err = e := rfl

end

namespace Inv

variable {s : State}

/-- Outside FAULT no error is recorded (R31). -/
theorem err_none (h : Inv s) (hp : s.phase ≠ .fault) : s.err = .none :=
  not_not.mp fun he => hp (h.err_iff.mp he)

theorem of_inbox (h : Inv s) (l : List (Option HostMove)) : Inv { s with inbox := l } := { h with }

/-! ### Reset and the host's writes -/

/-- A reset asks of the state before it that SRC be in order, and nothing else (R45). -/
theorem of_resetMachine (hwf : Memory.wf s.src = true) (hbelow : Cells.below s.cfg.srcSize s.src = true) :
    Inv s.resetMachine where
  src_wf := hwf
  src_below := hbelow
  base_fits := (posHolds_iff _ _).mpr fun w _ => Nat.two_pow_pos w
  pos_le := Nat.zero_le _
  op_le := Nat.le_refl _
  cap := (capAllows_iff _ _).mpr fun _ _ => Nat.zero_le _
  pal_count := Nat.zero_le _
  err_iff := by simp
  err_raised := by simp
  idle_fresh _ := ⟨rfl, rfl, rfl, rfl, rfl⟩
  comp_zero _ := rfl
  comp_set := by simp
  latches_clear _ _ := ⟨rfl, rfl, rfl, rfl⟩
  latches_set := by simp
  all_rendered := by simp
  raster_wf := rfl
  raster_below := rfl

theorem of_start (h : Inv s) (hp : s.phase = .idle) : Inv { s with phase := .decode } := by
  have he : s.err = .none := h.err_none (by simp [hp])
  obtain ⟨-, -, -, -, hcomp⟩ := h.idle_fresh hp
  exact { h with
    err_iff := by simp [he]
    idle_fresh := by simp
    comp_zero := fun _ => hcomp
    comp_set := by simp [he]
    latches_clear := fun _ _ => h.latches_clear (by simp [hp]) (by simp [hp])
    latches_set := by simp
    all_rendered := by simp }

theorem of_setSrcBase (h : Inv s) (hp : s.phase = .idle) {b : Nat} (hb : posHolds s.cfg b = true) (k : Nat) :
    Inv { s with srcBase := b, freeCount := k } := by
  obtain ⟨hpos, -⟩ := h.idle_fresh hp
  exact { h with
    base_fits := hb
    pos_le := hpos.trans_le (Nat.zero_le _) }

theorem of_setPalSel (h : Inv s) (hp : s.phase = .idle) (b : Bool) : Inv { s with palSel := b } :=
  { h with latches_set := by simp [hp] }

theorem of_palPush (h : Inv s) (hp : s.phase = .idle) (hn : s.palRam.length < 16) (w : Half) :
    Inv { s with palRam := s.palRam ++ [w] } :=
  { h with
    pal_count := by
      simp only [State.palCount, List.length_append, List.length_singleton]
      omega
    latches_set := by simp [hp] }

theorem of_writeSrc (h : Inv s) {a : Nat} (ha : a < s.cfg.srcSize) (v : Byte) :
    Inv { s with src := Cells.write s.src a v } :=
  { h with
    src_wf := Cells.wf_write a v h.src_wf
    src_below := Cells.below_write v ha h.src_below }

/-! ### DEC -/

/-- An opcode that completes keeps the invariant: what it read lies in SRC and what it appends fits OUT. -/
theorem of_appends (h : Inv s) (hp : s.phase = .decode) {len : Nat} {new : List Byte} (c : Byte)
    (hlen : s.srcPos + len ≤ s.cfg.srcSize - s.srcBase) (hfit : s.Fits new.length) :
    Inv (s.appends c len new) :=
  { h with
    pos_le := hlen
    op_le := Nat.le_add_right _ _
    cap := by simpa using (fits_iff _ _).mp hfit
    idle_fresh := by simp [hp]
    comp_set := by simp [hp, h.err_none]
    latches_set := by simp [hp] }

/-- A fault DEC raises keeps the invariant, wherever the reading stopped in SRC. -/
theorem of_raises (h : Inv s) (hp : s.phase = .decode) {len : Nat} {e : ErrCode} (c : Byte)
    (hlen : s.srcPos + len ≤ s.cfg.srcSize - s.srcBase)
    (he : e = .sourceExhausted ∨ e = .malformedOpcode ∨ e = .outOfRangeReference ∨ e = .outputOverflow) :
    Inv (s.raises c len e) := by
  have hne : e ≠ .none ∧ e ≠ .formatViolation ∧ e ≠ .configurationError ∧ e ≠ .rasterRange := by
    obtain rfl | rfl | rfl | rfl := he <;> decide
  exact { h with
    pos_le := hlen
    op_le := Nat.le_add_right _ _
    err_iff := by simp [hne]
    err_raised := by simp [hne]
    idle_fresh := by simp
    comp_zero := fun _ => h.comp_zero (.inl hp)
    comp_set := by simp [hne]
    latches_clear := fun _ _ => h.latches_clear (by simp [hp]) (by simp [hp])
    latches_set := by simp
    all_rendered := by simp }

theorem of_endStream (h : Inv s) (hp : s.phase = .decode)
    (hlen : s.srcPos + 1 ≤ s.cfg.srcSize - s.srcBase) :
    Inv { s.consume .endStream with compSize := s.srcPos, phase := .decoded } := by
  have he : s.err = .none := h.err_none (by simp [hp])
  exact { h with
    pos_le := hlen
    op_le := Nat.le_add_right _ _
    err_iff := by simp [he]
    idle_fresh := by simp
    comp_zero := by simp [he]
    comp_set := fun _ => ⟨rfl, rfl, rfl⟩
    latches_clear := fun _ _ => h.latches_clear (by simp [hp]) (by simp [hp])
    latches_set := by simp
    all_rendered := by simp }

theorem of_decStep (h : Inv s) (hp : s.phase = .decode) {t : State} (ht : decStep s = .next t) : Inv t := by
  obtain ⟨i, hi, ho⟩ | ⟨e, he, rfl⟩ := decStep_cases ht
  · have hin := fetch_ok_inside hi
    have hlen : s.srcPos + i.length ≤ s.cfg.srcSize - s.srcBase := by omega
    obtain ⟨e, he, rfl⟩ | ⟨rfl, rfl⟩ | ⟨new, -, hfit, rfl⟩ := ho
    · exact h.of_raises hp _ hlen (.inr he)
    · exact h.of_endStream hp hlen
    · exact h.of_appends hp _ hlen hfit
  · have hpos := h.pos_le
    obtain ⟨-, heq⟩ | ⟨hlt, heq⟩ := fetchFault_cases he <;> rw [heq]
    · exact h.of_raises hp (len := 0) s.ctl hpos (.inl rfl)
    · exact h.of_raises hp _ (by omega) (.inl rfl)

/-! ### REN -/

/-- A fault of the render start, raised in DECODED with nothing latched (R211). -/
theorem of_renderFault (h : Inv s) (hp : s.phase = .decoded) {e : ErrCode}
    (he : e = .configurationError ∨ e = .rasterRange) : Inv { s with err := e, phase := .fault } := by
  have hne : e ≠ .none ∧ e ≠ .formatViolation ∧ e ≠ .sourceExhausted ∧ e ≠ .malformedOpcode ∧
      e ≠ .outOfRangeReference ∧ e ≠ .outputOverflow := by
    obtain rfl | rfl := he <;> decide
  exact { h with
    err_iff := by simp [hne]
    err_raised := by simp [hne]
    idle_fresh := by simp
    comp_zero := by simp [hne]
    comp_set := fun _ => h.comp_set (.inl hp)
    latches_clear := fun _ _ => h.latches_clear (by simp [hp]) (by simp [hp])
    latches_set := by simp
    all_rendered := by simp }

theorem of_renderStart (h : Inv s) (hp : s.phase = .decoded) : Inv (renderStart s) := by
  have he : s.err = .none := h.err_none (by simp [hp])
  obtain ⟨-, -, heq⟩ | ⟨-, -, heq⟩ | ⟨hpal, htiles, heq⟩ := renderStart_cases s <;> rw [heq]
  · exact h.of_renderFault hp (.inl rfl)
  · exact h.of_renderFault hp (.inr rfl)
  · have full (hsel : s.palSel = true) : s.palCount = 16 :=
      Nat.le_antisymm h.pal_count (Nat.le_of_not_lt fun hlt => hpal ⟨hsel, hlt⟩)
    exact { h with
      err_iff := by simp [he]
      idle_fresh := by simp
      comp_zero := by simp [he]
      comp_set := fun _ => h.comp_set (.inl hp)
      latches_clear := by simp
      latches_set := fun _ => ⟨rfl, rfl, htiles, Nat.zero_le _, full⟩
      all_rendered := by simp
      raster_wf := rfl
      raster_below := rfl }

/-- One more tile, where there is one left: RASTER may then be any canonical memory in its bounds. -/
theorem of_tile (h : Inv s) (hp : s.phase = .render) (hne : s.tileIdx ≠ s.tTiles) {r : RasterMem}
    (hwf : Cells.wf r = true) (hbelow : Cells.below (128 * s.rasterH) r = true) :
    Inv { s with raster := r, tileIdx := s.tileIdx + 1 } := by
  obtain ⟨htiles, hrows, hmul, hidx, hpal⟩ := h.latches_set (.inl hp)
  have hlt : s.tileIdx + 1 ≤ s.tTiles := Nat.lt_of_le_of_ne hidx hne
  exact { h with
    latches_clear := fun hr => absurd hp hr
    latches_set := fun _ => ⟨htiles, hrows, hmul, hlt, hpal⟩
    all_rendered := by simp [hp]
    raster_wf := hwf
    raster_below := hbelow }

theorem of_renStep (h : Inv s) (hp : s.phase = .render) {t : State} (ht : renStep s = .next t) : Inv t := by
  have he : s.err = .none := h.err_none (by simp [hp])
  obtain ⟨hdone, rfl⟩ | ⟨hne, hrow, u, -, rfl⟩ := renStep_cases ht
  · exact { h with
      err_iff := by simp [he]
      idle_fresh := by simp
      comp_zero := by simp [he]
      comp_set := fun _ => h.comp_set (.inr (.inl hp))
      latches_clear := by simp
      latches_set := fun _ => h.latches_set (.inl hp)
      all_rendered := fun _ => hdone }
  · exact h.of_tile hp hne (Cells.wf_writeAll _ h.raster_wf)
      (Cells.below_writeAll (tileWrites_below u hrow) h.raster_below)

/-! ### Turns -/

theorem of_agentTurn (h : Inv s) {t : State} (ht : agentTurn s = .next t) : Inv t := by
  obtain ⟨hp, ht⟩ | ⟨hp, ht⟩ | ⟨-, -, rfl⟩ := agentTurn_cases ht
  · exact h.of_decStep hp ht
  · exact h.of_renStep hp ht
  · exact h

theorem of_hostMove (h : Inv s) {m : HostMove} {t : State} (ht : hostMove m s = .next t) : Inv t := by
  obtain rfl | ⟨-, hp, rfl⟩ | ⟨-, hp, rfl⟩ | ⟨-, rfl⟩ | ⟨-, b, k, -, hp, hb, rfl⟩ | ⟨v, -, hp, rfl⟩ |
    ⟨w, -, hp, hn, rfl⟩ | ⟨a, v, -, -, ha, rfl⟩ := hostMove_cases ht
  · exact h
  · exact h.of_start hp
  · exact h.of_renderStart hp
  · exact of_resetMachine h.src_wf h.src_below
  · exact h.of_setSrcBase hp hb k
  · exact h.of_setPalSel hp _
  · exact h.of_palPush hp hn w
  · exact h.of_writeSrc ha v

end Inv

/-- Settles O54: the inbox is no part of the invariant, and each kind of turn keeps it. -/
theorem everyStepKeepsInv : Obligations.EveryStepKeepsInv := by
  intro s t h hst
  obtain ⟨-, ht⟩ | ⟨m, -, ht⟩ := step_cases hst
  · exact (h.of_inbox _).of_agentTurn ht
  · exact (h.of_inbox _).of_hostMove ht

/-- Settles O53: every reset state is the reset of one with no byte in SRC. -/
theorem resetMeetsInv : Obligations.ResetMeetsInv :=
  ⟨Inv.of_resetMachine (s := State.reset) rfl rfl, fun c turns k =>
    Inv.of_resetMachine (s := { State.reset with cfg := c, inbox := turns, freeCount := k }) rfl rfl⟩

end Sys2Proof.Machine
end

section
/-! SUPPORT. The frame of an instruction, and what a turn does to PHASE, ERR and OUT (10_state R27, R30, R31):
every change there is, said once with its cause, and the three statements that follow from it. -/

namespace Sys2Proof.Machine

/-! ### The frame of an instruction -/

/-- OUT outside the bytes appended to it reads as before. -/
theorem getElem?_append_outside {out new : List Byte} {a : Nat}
    (h : a < out.length ∨ out.length + new.length ≤ a) : (out ++ new)[a]? = out[a]? := by
  obtain h | h := h
  · exact List.getElem?_append_left h
  · rw [List.getElem?_eq_none (by simpa using h), List.getElem?_eq_none (by omega)]

/-- Settles O24: a meaning is a fault entry, END or an append, and each writes only what it names. -/
theorem instructionFrame : Obligations.InstructionFrame := by
  intro i s t h
  obtain ⟨e, -, rfl⟩ | ⟨rfl, rfl⟩ | ⟨new, hlen, -, rfl⟩ := exec_next h
  · simp [State.outRead]
  · simp [State.outRead]
  · have hout (a : Nat) (ha : a < s.outLen ∨ s.outLen + runLength i ≤ a) :
        (s.out ++ new)[a]? = s.out[a]? := getElem?_append_outside (by rwa [hlen])
    simpa [State.outRead] using hout

/-! ### The changes of PHASE, ERR and OUT -/

/-- What the turn `turn` (a host move, or none for the enabled agent's) may change of PHASE, ERR and OUT
from `s` to `t`, with its cause in `s`. -/
inductive StatusChange (turn : Option HostMove) (s t : State) : Prop
  | unchanged (phase : t.phase = s.phase) (err : t.err = s.err) (out : t.out = s.out)
  | start (move : turn = some (.cmd 1)) (before : s.phase = .idle) (phase : t.phase = .decode)
      (err : t.err = s.err) (out : t.out = s.out)
  | append (agent : turn = none) (before : s.phase = .decode) (phase : t.phase = .decode)
      (err : t.err = s.err) (out : s.out <+: t.out)
  | endStream (agent : turn = none) (before : s.phase = .decode) (fetched : s.fetch = .ok .endStream)
      (phase : t.phase = .decoded) (err : t.err = s.err) (out : t.out = s.out)
  | decodeFault (agent : turn = none) (before : s.phase = .decode) (fetched : s.fetch ≠ .ok .endStream)
      (phase : t.phase = .fault) (err : t.err ≠ .none ∧ t.err ≠ .formatViolation) (out : t.out = s.out)
  | renderStart (move : turn = some (.cmd 2)) (before : s.phase = .decoded) (phase : t.phase = .render)
      (err : t.err = s.err) (out : t.out = s.out)
  | renderFault (move : turn = some (.cmd 2)) (before : s.phase = .decoded) (phase : t.phase = .fault)
      (err : t.err ≠ .none ∧ t.err ≠ .formatViolation) (out : t.out = s.out)
  | renderDone (agent : turn = none) (before : s.phase = .render) (tiles : s.tileIdx = s.tTiles)
      (phase : t.phase = .rendered) (err : t.err = s.err) (out : t.out = s.out)
  | reset (move : turn = some .hardReset ∨
        turn = some (.cmd 3) ∧ s.phase ≠ .decode ∧ s.phase ≠ .render)
      (phase : t.phase = .idle) (err : t.err = .none) (out : t.out = [])

variable {s t : State}

/-- END is never a fault: the step that fetches it ends the decode (R122). -/
theorem decStep_of_endStream (h : s.fetch = .ok .endStream) :
    decStep s = .next { s.consume .endStream with compSize := s.srcPos, phase := .decoded } := by
  simp only [decStep, h]
  rfl

theorem decStep_statusChange (hp : s.phase = .decode) (h : decStep s = .next t) :
    StatusChange none s t := by
  by_cases hf : s.fetch = .ok .endStream
  · rw [decStep_of_endStream hf] at h
    cases h
    exact .endStream rfl hp hf rfl rfl rfl
  · obtain ⟨i, hi, ho⟩ | ⟨e, he, rfl⟩ := decStep_cases h
    · obtain ⟨e, he, rfl⟩ | ⟨rfl, -⟩ | ⟨new, -, -, rfl⟩ := ho
      · refine .decodeFault rfl hp hf rfl ?_ rfl
        obtain rfl | rfl | rfl := he <;> simp
      · exact absurd hi hf
      · exact .append rfl hp hp rfl (List.prefix_append _ _)
    · obtain ⟨-, heq⟩ | ⟨-, heq⟩ := fetchFault_cases he <;> rw [heq] <;>
        exact .decodeFault rfl hp hf rfl (by simp [State.exhausts]) rfl

theorem agentTurn_statusChange (h : agentTurn s = .next t) : StatusChange none s t := by
  obtain ⟨hp, h⟩ | ⟨hp, h⟩ | ⟨-, -, rfl⟩ := agentTurn_cases h
  · exact decStep_statusChange hp h
  · obtain ⟨hdone, rfl⟩ | ⟨-, -, u, -, rfl⟩ := renStep_cases h
    · exact .renderDone rfl hp hdone rfl rfl rfl
    · exact .unchanged rfl rfl rfl
  · exact .unchanged rfl rfl rfl

theorem renderStart_statusChange (hp : s.phase = .decoded) :
    StatusChange (some (.cmd 2)) s (renderStart s) := by
  obtain ⟨-, -, heq⟩ | ⟨-, -, heq⟩ | ⟨-, -, heq⟩ := renderStart_cases s <;> rw [heq]
  · exact .renderFault rfl hp rfl (by simp) rfl
  · exact .renderFault rfl hp rfl (by simp) rfl
  · exact .renderStart rfl hp rfl rfl rfl

theorem hostMove_statusChange {m : HostMove} (h : hostMove m s = .next t) :
    StatusChange (some m) s t := by
  obtain rfl | ⟨rfl, hp, rfl⟩ | ⟨rfl, hp, rfl⟩ | ⟨hm, rfl⟩ | ⟨_, _, _, -, -, -, rfl⟩ | ⟨_, -, -, rfl⟩ |
    ⟨_, -, -, -, rfl⟩ | ⟨_, _, -, -, -, rfl⟩ := hostMove_cases h
  · exact .unchanged rfl rfl rfl
  · exact .start rfl hp rfl rfl rfl
  · exact renderStart_statusChange hp
  · refine .reset ?_ rfl rfl rfl
    obtain ⟨rfl, hp⟩ | rfl := hm
    · exact .inr ⟨rfl, hp⟩
    · exact .inl rfl
  · exact .unchanged rfl rfl rfl
  · exact .unchanged rfl rfl rfl
  · exact .unchanged rfl rfl rfl
  · exact .unchanged rfl rfl rfl

/-- The turn the next step takes is `turn`: a host move, or the agent's (entry 8). -/
def State.Takes (s : State) : Option HostMove → Prop
  | none => s.inbox = [] ∨ s.inbox.head? = some none
  | some m => s.inbox.head? = some (some m)

/-- A step is a turn, taken from the inbox. -/
theorem step_statusChange (h : step s = .next t) :
    ∃ turn, s.Takes turn ∧ StatusChange turn { s with inbox := s.inbox.tail } t := by
  obtain ⟨hi, h⟩ | ⟨m, hm, h⟩ := step_cases h
  · exact ⟨none, hi, agentTurn_statusChange h⟩
  · exact ⟨some m, hm, hostMove_statusChange h⟩

namespace StatusChange

variable {turn : Option HostMove}

/-- ERR stays with FAULT left alone, or is written by a fault entry or a reset (R31, R227). -/
theorem err_cases (h : StatusChange turn s t) :
    (t.err = s.err ∧ (t.phase = .fault ↔ s.phase = .fault)) ∨
    (s.phase ≠ .fault ∧ t.phase = .fault ∧ t.err ≠ .none ∧ t.err ≠ .formatViolation) ∨
    (t.phase = .idle ∧ t.err = .none) := by
  cases h with
  | unchanged phase err => exact .inl ⟨err, by rw [phase]⟩
  | start _ before phase err | append _ before phase err | endStream _ before _ phase err
  | renderStart _ before phase err | renderDone _ before _ phase err =>
    exact .inl ⟨err, by simp [before, phase]⟩
  | decodeFault _ before _ phase err | renderFault _ before phase err =>
    exact .inr (.inl ⟨by simp [before], phase, err⟩)
  | reset _ phase err => exact .inr (.inr ⟨phase, err⟩)

/-- OUT stays, is appended to by DEC, or is emptied by a reset (R27). -/
theorem out_cases (h : StatusChange turn s t) :
    t.out = s.out ∨ (s.phase = .decode ∧ s.out <+: t.out) ∨
    (t.phase = .idle ∧ t.out = [] ∧ (turn = some .hardReset ∨ turn = some (.cmd 3))) := by
  cases h with
  | unchanged _ _ out | start _ _ _ _ out | endStream _ _ _ _ _ out | decodeFault _ _ _ _ _ out
  | renderStart _ _ _ _ out | renderFault _ _ _ _ out | renderDone _ _ _ _ _ out => exact .inl out
  | append _ before _ _ out => exact .inr (.inl ⟨before, out⟩)
  | reset move phase _ out => exact .inr (.inr ⟨phase, out, move.imp_right And.left⟩)

end StatusChange

/-- Settles O49: a change of status gives the transition and its cause. -/
theorem phaseTransitions : Obligations.PhaseTransitions := by
  intro s t h
  obtain ⟨turn, hturn, hc⟩ := step_statusChange h
  cases hc with
  | unchanged phase => exact .inl phase
  | start move before phase =>
    subst move
    exact .inr (.inl ⟨before, phase, hturn⟩)
  | append _ before phase => exact .inl (phase.trans before.symm)
  | endStream agent before fetched phase =>
    subst agent
    exact .inr (.inr (.inl ⟨before, phase, fetched, hturn⟩))
  | decodeFault agent before fetched phase =>
    subst agent
    exact .inr (.inr (.inr (.inl ⟨before, phase, fetched, hturn⟩)))
  | renderStart move before phase =>
    subst move
    exact .inr (.inr (.inr (.inr (.inl ⟨before, .inl phase, hturn⟩))))
  | renderFault move before phase =>
    subst move
    exact .inr (.inr (.inr (.inr (.inl ⟨before, .inr phase, hturn⟩))))
  | renderDone agent before tiles phase =>
    subst agent
    exact .inr (.inr (.inr (.inr (.inr (.inl ⟨before, phase, tiles, hturn⟩)))))
  | reset move phase =>
    refine .inr (.inr (.inr (.inr (.inr (.inr ⟨phase, ?_⟩)))))
    obtain rfl | ⟨rfl, hp⟩ := move
    · exact .inl hturn
    · exact .inr ⟨hturn, hp⟩

/-- Settles O50: in each of the three cases of ERR. -/
theorem errIsWrittenByFaultEntryOnly : Obligations.ErrIsWrittenByFaultEntryOnly := by
  intro s t hs h
  obtain ⟨turn, -, hc⟩ := step_statusChange h
  obtain ⟨err, phase⟩ | ⟨before, phase, hnone, hseven⟩ | ⟨phase, err⟩ := hc.err_cases
  · exact ⟨by rw [err, hs]; exact phase.symm, fun he => err.symm.trans he, .inl err⟩
  · exact ⟨iff_of_true hnone phase, fun he => absurd he hseven, .inr (.inl ⟨before, phase⟩)⟩
  · exact ⟨by simp [phase, err], by simp [err], .inr (.inr ⟨phase, err⟩)⟩

/-- Settles O51: in each of the three cases of OUT. -/
theorem outIsAppendOnly : Obligations.OutIsAppendOnly := by
  intro s t h
  obtain ⟨turn, hturn, hc⟩ := step_statusChange h
  obtain out | ⟨before, out⟩ | ⟨phase, out, move⟩ := hc.out_cases
  · exact .inl ⟨out ▸ List.prefix_rfl, fun hne => absurd out.symm hne⟩
  · exact .inl ⟨out, fun _ => before⟩
  · refine .inr ⟨phase, out, ?_⟩
    obtain rfl | rfl := move
    · exact .inl hturn
    · exact .inr hturn

end Sys2Proof.Machine
end

section
/-! SUPPORT. The host's port (10_state R32, R33, R38, R40, R46): what each write does in IDLE and outside it,
and what each read answers, by phase. -/

namespace Sys2Proof.Machine

variable {s : State}

/-! ### Phases -/

/-- The phases in which neither DEC nor REN is enabled (R30). -/
theorem hostOwned_iff (p : Phase) :
    p.hostOwned = true ↔ p = .idle ∨ p = .decoded ∨ p = .rendered ∨ p = .fault := by
  cases p <;> simp [Phase.hostOwned]

theorem not_hostOwned_iff (p : Phase) : ¬ p.hostOwned = true ↔ p = .decode ∨ p = .render := by
  cases p <;> simp [Phase.hostOwned]

/-! ### Commands -/

theorem writeCmd_start (hp : s.phase = .idle) : writeCmd 1 s = { s with phase := .decode } := by
  simp [writeCmd, hp]

theorem writeCmd_render (hp : s.phase = .decoded) : writeCmd 2 s = renderStart s := by
  simp [writeCmd, hp]

theorem writeCmd_reset (hp : s.phase.hostOwned = true) : writeCmd 3 s = s.resetMachine := by
  simp [writeCmd, hp]

/-- A command the phase does not accept has no effect (R32). -/
theorem writeCmd_ignored {v : Nat} (hstart : ¬ (v = 1 ∧ s.phase = .idle))
    (hrender : ¬ (v = 2 ∧ s.phase = .decoded)) (hreset : ¬ (v = 3 ∧ s.phase.hostOwned = true)) :
    writeCmd v s = s := by
  simp only [writeCmd, if_neg hstart, if_neg hrender, if_neg hreset]

/-- Settles O44: the three accepted commands, and why each other write meets none of their conditions. -/
theorem commandsInTheirPhases : Obligations.CommandsInTheirPhases := by
  intro s v
  refine ⟨?_, ?_, ?_, fun h => congrArg Host.Outcome.next (writeCmd_ignored ?_ ?_ ?_)⟩
  · rintro rfl hp
    exact congrArg Host.Outcome.next (writeCmd_start hp)
  · rintro rfl hp
    exact congrArg Host.Outcome.next (writeCmd_render hp)
  · rintro rfl hp
    exact congrArg Host.Outcome.next (writeCmd_reset ((hostOwned_iff _).mpr hp))
  · rintro ⟨rfl, hp⟩
    simp [hp] at h
  · rintro ⟨rfl, hp⟩
    simp [hp] at h
  · rintro ⟨rfl, hp⟩
    exact (not_hostOwned_iff _).mpr (by simpa using h) hp

/-! ### The palette port -/

theorem hostMove_palPush (hp : s.phase = .idle) (hn : s.palCount < 16) (w : Half) :
    hostMove (.palPush w) s = .next { s with palRam := s.palRam ++ [w] } := by
  simp [hostMove, pushPalette, hp, hn]

theorem hostMove_palPush_ignored (h : s.phase ≠ .idle ∨ 16 ≤ s.palCount) (w : Half) :
    hostMove (.palPush w) s = .next s := by
  by_cases hp : s.phase = .idle
  · have hfull : ¬ s.palCount < 16 := by
      have := h.resolve_left (not_not.mpr hp)
      omega
    simp [hostMove, pushPalette, hp, hfull]
  · simp [hostMove, hp]

/-- The pushed word becomes entry PAL_COUNT (R40). -/
theorem palWord_push_last (w : Half) :
    State.palWord { s with palRam := s.palRam ++ [w] } s.palCount = w := by
  simp [State.palWord, State.palCount]

/-- The entries already pushed keep their words (R40). -/
theorem palWord_push_earlier (w : Half) {k : Nat} (hk : k < s.palCount) :
    State.palWord { s with palRam := s.palRam ++ [w] } k = s.palWord k := by
  simp only [State.palWord, List.getElem?_append_left (show k < s.palRam.length from hk)]

theorem toNat_offsetLE (lo hi : Byte) : (offsetLE lo hi).toNat = lo.toNat + 256 * hi.toNat := by
  have hlo := lo.isLt
  have hhi := hi.isLt
  simp only [offsetLE, BitVec.toNat_ofNat]
  omega

/-- Two bytes make a word, and a trailing odd byte none (R40). -/
theorem length_paletteWords : ∀ bs : List Byte, (paletteWords bs).length = bs.length / 2
  | [] => rfl
  | [_] => by simp [paletteWords]
  | lo :: hi :: bs => by
    simp only [paletteWords, List.length_cons, length_paletteWords bs]
    omega

/-- Word `k` of a byte sequence is its bytes 2k and 2k + 1, the low byte first (R40). -/
theorem getElem?_paletteWords : ∀ (bs : List Byte) (k : Nat) (h : k < bs.length / 2),
    (paletteWords bs)[k]? = some (offsetLE (bs[2 * k]'(by omega)) (bs[2 * k + 1]'(by omega)))
  | [], k, h => absurd h (Nat.not_lt_zero k)
  | [_], _, h => by simp at h
  | _ :: _ :: _, 0, _ => rfl
  | _ :: _ :: bs, k + 1, h => by
    have hk : k < bs.length / 2 := by
      simp only [List.length_cons] at h
      omega
    simpa [paletteWords, Nat.mul_succ] using getElem?_paletteWords bs k hk

/-- Settles O46: a push below sixteen, a push that is ignored, and the words of a byte sequence. -/
theorem palettePushFillsSixteenEntries : Obligations.PalettePushFillsSixteenEntries := by
  refine ⟨fun s w hp hn => ?_, fun s w h => hostMove_palPush_ignored h w,
    fun bs => ⟨length_paletteWords bs, ?_⟩⟩
  · exact ⟨_, hostMove_palPush hp hn w, by simp [State.palCount], palWord_push_last w,
      fun k hk => palWord_push_earlier w hk, rfl⟩
  · intro k h
    rw [getElem?_paletteWords bs k h, Option.map_some, toNat_offsetLE]

/-! ### The other writes -/

theorem hostMove_setPalSel (hp : s.phase = .idle) (v : Nat) :
    hostMove (.setPalSel v) s = .next { s with palSel := v.testBit 0 } := by
  simp [hostMove, hp]

theorem hostMove_setSrcBase (hp : s.phase = .idle) (v : Nat) :
    hostMove (.setSrcBase v) s = .next (writeSrcBase v s) := by
  simp [hostMove, hp]

/-- A value that POS_W bits do not hold leaves a free value of POS_W bits in SRC_BASE (entry 18). -/
theorem writeSrcBase_of_wide {v w : Nat} (hw : s.cfg.posW = some w) (hv : 2 ^ w ≤ v) :
    writeSrcBase v s = { s with
      srcBase := Config.srcBaseWide s.freeCount % 2 ^ w, freeCount := s.freeCount + 1 } := by
  simp [writeSrcBase, hw, Nat.not_lt.mpr hv]

theorem hostMove_writeSrc (hp : s.phase = .idle) {a : Nat} (ha : a < s.cfg.srcSize) (v : Byte) :
    hostMove (.writeSrc a v) s = .next { s with src := Cells.write s.src a v } := by
  simp [hostMove, hp, ha]

theorem hostMove_writeSrc_absent (hp : s.phase = .idle) {a : Nat} (ha : s.cfg.srcSize ≤ a) (v : Byte) :
    hostMove (.writeSrc a v) s = .refused .srcAddressAbsent := by
  simp [hostMove, hp, Nat.not_lt.mpr ha]

/-! ### Reads -/

theorem hostReadSrc_of_owned (hp : s.phase.hostOwned = true) {a : Nat} (ha : a < s.cfg.srcSize) :
    s.hostReadSrc a = some (s.srcByte a) := by
  simp [State.hostReadSrc, hp, ha]

theorem hostReadSrc_absent {a : Nat} (h : s.cfg.srcSize ≤ a) : s.hostReadSrc a = none :=
  if_neg fun hr => absurd hr.2 (Nat.not_lt.mpr h)

/-- After a host write of SRC the byte reads as written (R22, R64). -/
theorem hostReadSrc_write_same (hp : s.phase = .idle) {a : Nat} (ha : a < s.cfg.srcSize) (v : Byte) :
    State.hostReadSrc { s with src := Cells.write s.src a v } a = some v := by
  simp [State.hostReadSrc, State.srcByte, hp, ha, Phase.hostOwned]

/-- Every other byte of SRC reads as before. -/
theorem hostReadSrc_write_other {a a' : Nat} (h : a' ≠ a) (v : Byte) :
    State.hostReadSrc { s with src := Cells.write s.src a v } a' = s.hostReadSrc a' := by
  simp only [State.hostReadSrc, State.srcByte, Cells.read_write_other _ _ _ _ h]

/-- Settles O47, write by write; outside IDLE each register write is ignored and a write of SRC refused. -/
theorem hostWritesOnlyInIdle : Obligations.HostWritesOnlyInIdle := by
  refine ⟨fun s v hp hv => ?_, fun s v w hp hw hv => ?_, fun s v hp => ?_,
    fun s a v hp ha => hostMove_writeSrc_absent hp ha v, fun s a v hp ha => ?_, fun s v a w b hp => ?_⟩
  · rw [hostMove_setSrcBase hp, writeSrcBase_of_holds ((posHolds_iff _ _).mpr hv)]
  · exact ⟨_, Nat.mod_lt _ (Nat.two_pow_pos w),
      by rw [hostMove_setSrcBase hp, writeSrcBase_of_wide hw hv]⟩
  · rw [hostMove_setPalSel hp, Nat.testBit_zero]
  · exact ⟨_, hostMove_writeSrc hp ha v, rfl, hostReadSrc_write_same hp ha v,
      fun a' h => hostReadSrc_write_other h v⟩
  · exact ⟨if_neg hp, if_neg hp, if_neg hp, if_neg hp⟩

theorem hostReadOut_of_owned (hp : s.phase.hostOwned = true) (i : Nat) : s.hostReadOut i = s.out[i]? := by
  simp [State.hostReadOut, State.outRead, hp]

theorem lastOutput_of_owned (hp : s.phase.hostOwned = true) :
    ∃ bs, s.lastOutput = some bs ∧ bs.length = min 16 s.out.length ∧ bs <:+ s.out := by
  refine ⟨s.out.drop (s.out.length - 16), by simp [State.lastOutput, hp], ?_, List.drop_suffix _ _⟩
  rw [List.length_drop]
  omega

theorem hostReadPalRam_of_owned (hp : s.phase.hostOwned = true) {i : Nat} (hi : i < 16) :
    s.hostReadPalRam i = some (s.palWord i) := by
  simp [State.hostReadPalRam, hp, hi]

/-- Where DEC or REN is enabled, no memory answers the host (R262). -/
theorem hostReads_none (hp : ¬ s.phase.hostOwned = true) (k : Nat) :
    s.hostReadOut k = none ∧ s.lastOutput = none ∧ s.hostReadSrc k = none ∧ s.hostReadPalRam k = none := by
  simp [State.hostReadOut, State.lastOutput, State.hostReadSrc, State.hostReadPalRam, hp]

theorem hostReadRaster_of_rendered (hp : s.phase = .rendered) {x y : Nat} (hx : x < 128)
    (hy : y < s.rasterH) : s.hostReadRaster x y = Cells.read s.raster (128 * y + x) :=
  if_pos ⟨hp, hx, hy⟩

theorem hostReadRaster_none {x y : Nat} (h : s.phase ≠ .rendered ∨ 128 ≤ x ∨ s.rasterH ≤ y) :
    s.hostReadRaster x y = none := by
  refine if_neg ?_
  rintro ⟨hp, hx, hy⟩
  obtain h | h | h := h
  · exact h hp
  · omega
  · omega

/-- Settles O48: the registers by definition of their codes, the memories by who owns the phase. -/
theorem hostReadsByPhase : Obligations.HostReadsByPhase := by
  refine ⟨fun s => ?_, fun s hp => ?_, fun s k hp => hostReads_none ((not_hostOwned_iff _).mpr hp) k,
    fun s x y hp hx hy => hostReadRaster_of_rendered hp hx hy, fun s x y h => hostReadRaster_none h⟩
  · refine ⟨rfl, rfl, ?_, ?_, rfl, rfl, rfl, rfl, rfl, rfl, ?_, rfl, rfl, rfl, rfl⟩
    · change some s.phase.code = _
      cases s.phase <;> rfl
    · change some s.err.code = _
      cases s.err <;> rfl
    · change some s.palSel.toNat = _
      cases s.palSel <;> rfl
  · have ho : s.phase.hostOwned = true := (hostOwned_iff _).mpr hp
    refine ⟨hostReadOut_of_owned ho, lastOutput_of_owned ho, fun a => hostReadSrc_of_owned ho,
      fun a => hostReadSrc_absent, fun i w hi hw => ?_, fun i hi => ?_, fun i hi => ?_⟩
    · rw [hostReadPalRam_of_owned ho hi, State.palWord, hw, Option.getD_some]
    · rw [hostReadPalRam_of_owned ho hi, Option.isSome_some]
    · exact if_neg fun h => absurd h.2 (Nat.not_lt.mpr hi)

end Sys2Proof.Machine
end

section
/-! SUPPORT. The memories (20_memory): an opcode appends its run whole or not at all, tiles compose in any order,
and launch data is written by the host in IDLE only. -/

namespace Sys2Proof.Machine

/-- Settles O25: a fault entry restores OUT, END has no run, and an append is the whole run. -/
theorem opcodeIsAllOrNothing : Obligations.OpcodeIsAllOrNothing := by
  intro i s t hp h
  obtain ⟨e, -, rfl⟩ | ⟨rfl, rfl⟩ | ⟨new, hlen, -, rfl⟩ := exec_next h
  · exact ⟨fun hne => absurd rfl hne, fun _ => rfl⟩
  · exact ⟨fun _ => ⟨rfl, fun _ _ => rfl⟩, by simp⟩
  · exact ⟨fun _ => ⟨by simp [hlen], fun a ha => List.getElem?_append_left ha⟩, by simp [hp]⟩

/-! ### Writes to disjoint addresses (R78) -/

section
variable {α : Type}

/-- What an address reads after a list of writes depends on what it read before and on nothing else. -/
theorem Cells.read_writeAll_congr {m m' : List (Nat × α)} {a : Nat} (l : List (Nat × α))
    (h : Cells.read m a = Cells.read m' a) :
    Cells.read (Cells.writeAll m l) a = Cells.read (Cells.writeAll m' l) a := by
  induction l generalizing m m' with
  | nil => simpa using h
  | cons c l ih =>
    obtain ⟨b, v⟩ := c
    rw [Cells.writeAll_cons, Cells.writeAll_cons]
    exact ih (by rw [Cells.read_write, Cells.read_write, h])

/-- An address that `l'` does not name reads the same whether `l'` is written after or before `l`. -/
theorem Cells.read_writeAll_swap (m l : List (Nat × α)) {l' : List (Nat × α)} {a : Nat}
    (h : ∀ c ∈ l', c.1 ≠ a) :
    Cells.read (Cells.writeAll (Cells.writeAll m l) l') a
      = Cells.read (Cells.writeAll (Cells.writeAll m l') l) a := by
  rw [Cells.read_writeAll_other h]
  exact Cells.read_writeAll_congr l (Cells.read_writeAll_other h).symm

/-- Two lists of writes that name no common address commute on a canonical memory, as the same data. -/
theorem Cells.writeAll_comm {m : List (Nat × α)} (l l' : List (Nat × α)) (hm : Cells.wf m = true)
    (h : ∀ c ∈ l, ∀ d ∈ l', c.1 ≠ d.1) :
    Cells.writeAll (Cells.writeAll m l) l' = Cells.writeAll (Cells.writeAll m l') l := by
  refine Cells.ext_of_wf (Cells.wf_writeAll l' (Cells.wf_writeAll l hm))
    (Cells.wf_writeAll l (Cells.wf_writeAll l' hm)) fun a => ?_
  by_cases ha : ∃ d ∈ l', d.1 = a
  · obtain ⟨d, hd, rfl⟩ := ha
    exact (Cells.read_writeAll_swap m l' fun c hc => h c hc d hd).symm
  · exact Cells.read_writeAll_swap m l fun d hd e => ha ⟨d, hd, e⟩

end

/-- Every address tile `i` writes is that of a pixel tile `i` covers (R214, R215). -/
theorem tileAt_of_mem_tileWrites {s : State} {i : Nat} {t : Tile} {c : Nat × Rgb}
    (hc : c ∈ tileWrites s i t) : tileAt (c.1 % 128) (c.1 / 128) = i := by
  simp only [tileWrites, List.mem_flatMap, List.mem_map] at hc
  obtain ⟨y, -, x, -, rfl⟩ := hc
  simp only [tileAt, pixelKey, composeX, composeY]
  omega

/-- Settles O43: an address names the tile that writes it, so two tiles write disjoint addresses. -/
theorem tilesMayBeRenderedInAnyOrder : Obligations.TilesMayBeRenderedInAnyOrder := by
  intro s m i j t u hij hm
  refine Cells.writeAll_comm _ _ hm fun c hc d hd hcd => hij ?_
  rw [← tileAt_of_mem_tileWrites hc, hcd, tileAt_of_mem_tileWrites hd]

/-! ### Launch data (R76, R201) -/

/-- The parameters, SRC, SRC_BASE and the palette are the same in `s` and `t`. -/
structure SameLaunchData (s t : State) : Prop where
  cfg : t.cfg = s.cfg
  src : t.src = s.src
  srcBase : t.srcBase = s.srcBase
  palSel : t.palSel = s.palSel
  palRam : t.palRam = s.palRam

variable {s t : State}

theorem Outcomes.sameLaunchData {i : Instr} (h : Outcomes i s t) : SameLaunchData s t := by
  obtain ⟨e, -, rfl⟩ | ⟨-, rfl⟩ | ⟨new, -, -, rfl⟩ := h
  · exact ⟨rfl, rfl, rfl, rfl, rfl⟩
  · exact ⟨rfl, rfl, rfl, rfl, rfl⟩
  · exact ⟨rfl, rfl, rfl, rfl, rfl⟩

theorem fetchFault_sameLaunchData (s : State) (e : DecodeError) : SameLaunchData s (fetchFault s e) := by
  cases e with
  | noControlByte => exact ⟨rfl, rfl, rfl, rfl, rfl⟩
  | missingOperands ctl => exact ⟨rfl, rfl, rfl, rfl, rfl⟩

theorem renderStart_sameLaunchData (s : State) : SameLaunchData s (renderStart s) := by
  obtain ⟨-, -, heq⟩ | ⟨-, -, heq⟩ | ⟨-, -, heq⟩ := renderStart_cases s <;> rw [heq] <;>
    exact ⟨rfl, rfl, rfl, rfl, rfl⟩

/-- No agent writes launch data: DEC and REN only read it (R76, R201). -/
theorem agentTurn_sameLaunchData (h : agentTurn s = .next t) : SameLaunchData s t := by
  obtain ⟨-, h⟩ | ⟨-, h⟩ | ⟨-, -, rfl⟩ := agentTurn_cases h
  · obtain ⟨i, -, ho⟩ | ⟨e, -, rfl⟩ := decStep_cases h
    · exact ho.sameLaunchData
    · exact fetchFault_sameLaunchData s e
  · obtain ⟨-, rfl⟩ | ⟨-, -, u, -, rfl⟩ := renStep_cases h
    · exact ⟨rfl, rfl, rfl, rfl, rfl⟩
    · exact ⟨rfl, rfl, rfl, rfl, rfl⟩
  · exact ⟨rfl, rfl, rfl, rfl, rfl⟩

/-- Settles O52: an agent's turn keeps launch data, and each host move that does not is in IDLE or is a reset. -/
theorem launchDataIsWrittenByTheHostInIdle : Obligations.LaunchDataIsWrittenByTheHostInIdle := by
  intro s t h
  obtain ⟨-, h⟩ | ⟨m, hm, h⟩ := step_cases h
  · obtain ⟨hcfg, hsrc, hbase, hsel, hram⟩ := agentTurn_sameLaunchData h
    exact ⟨hcfg, .inl hsrc, .inl ⟨hbase, hsel, hram⟩⟩
  · obtain rfl | ⟨-, -, rfl⟩ | ⟨-, -, rfl⟩ | ⟨hreset, rfl⟩ | ⟨v, b, k, -, hp, -, rfl⟩ | ⟨v, -, hp, rfl⟩ |
      ⟨w, -, hp, -, rfl⟩ | ⟨a, v, rfl, hp, ha, rfl⟩ := hostMove_cases h
    · exact ⟨rfl, .inl rfl, .inl ⟨rfl, rfl, rfl⟩⟩
    · exact ⟨rfl, .inl rfl, .inl ⟨rfl, rfl, rfl⟩⟩
    · obtain ⟨hcfg, hsrc, hbase, hsel, hram⟩ := renderStart_sameLaunchData { s with inbox := s.inbox.tail }
      exact ⟨hcfg, .inl hsrc, .inl ⟨hbase, hsel, hram⟩⟩
    · refine ⟨rfl, .inl rfl, .inr (.inr ⟨rfl, ?_⟩)⟩
      obtain ⟨rfl, -⟩ | rfl := hreset
      · exact .inr hm
      · exact .inl hm
    · exact ⟨rfl, .inl rfl, .inr (.inl ⟨hp, _, hm⟩)⟩
    · exact ⟨rfl, .inl rfl, .inr (.inl ⟨hp, _, hm⟩)⟩
    · exact ⟨rfl, .inl rfl, .inr (.inl ⟨hp, _, hm⟩)⟩
    · exact ⟨rfl, .inr ⟨hp, a, v, hm, ha, rfl⟩, .inl ⟨rfl, rfl, rfl⟩⟩

end Sys2Proof.Machine
end

section
/-! SUPPORT. The encoding (30_encoding): the fields an encoder writes and a decoder reads undo each other, the opcode
map says which control bytes select a form, and decode and encode agree in both directions. -/

namespace Sys2Proof

/-! ### Fields of a short form (R91, R94) -/

theorem shortLength_iff {n : Nat} : shortLength n = true ↔ 1 ≤ n ∧ n ≤ 32 := by
  simp [shortLength]

theorem shortLength_shortCount (c : Byte) : shortLength (shortCount c) = true :=
  shortLength_iff.mpr ⟨Nat.le_add_left 1 _, shortCount_le c⟩

theorem toNat_shortControl {f n : Nat} (hf : f < 7) (hn : shortLength n = true) :
    (shortControl f n).toNat = 32 * f + (n - 1) := by
  have := shortLength_iff.mp hn
  simp only [shortControl, BitVec.toNat_ofNat]
  omega

theorem family_shortControl {f n : Nat} (hf : f < 7) (hn : shortLength n = true) :
    (shortControl f n).toNat / 32 = f := by
  have := shortLength_iff.mp hn
  rw [toNat_shortControl hf hn]
  omega

theorem shortCount_shortControl {f n : Nat} (hf : f < 7) (hn : shortLength n = true) :
    shortCount (shortControl f n) = n := by
  have := shortLength_iff.mp hn
  rw [shortCount_eq, toNat_shortControl hf hn]
  omega

theorem shortControl_shortCount {c : Byte} {f : Nat} (hf : c.toNat / 32 = f) :
    shortControl f (shortCount c) = c := by
  apply BitVec.eq_of_toNat_eq
  have := c.isLt
  rw [shortCount_eq, shortControl, BitVec.toNat_ofNat]
  omega

/-! ### Fields of an extended form (R92, R95) -/

/-- A control byte of family 7 that is not the sentinel (R92, R93). -/
def IsExtended (c : Byte) : Prop := c.toNat / 32 = 7 ∧ c ≠ 0xFF#8

theorem eq_sentinel_iff {c : Byte} : c = 0xFF#8 ↔ c.toNat = 255 := BitVec.toNat_inj.symm

theorem isExtended_iff {c : Byte} : IsExtended c ↔ 224 ≤ c.toNat ∧ c.toNat < 255 := by
  have := c.isLt
  rw [IsExtended, ne_eq, eq_sentinel_iff]
  omega

theorem selector_eq_iff {c : Byte} {sss : BitVec 3} : selector c = sss ↔ c.toNat / 4 % 8 = sss.toNat := by
  rw [← BitVec.toNat_inj, selector_toNat]

/-- The counts 769 to 1024 are missing at selector 7 alone, where their control byte is 0xFF (R265). -/
theorem extLength_iff {sss : BitVec 3} {n : Nat} :
    extLength sss n = true ↔ 1 ≤ n ∧ n ≤ 1024 ∧ (sss.toNat = 7 → n ≤ 768) := by
  simp [extLength, ← BitVec.toNat_inj, and_assoc, ← imp_iff_not_or]

theorem toNat_extControl {sss : BitVec 3} {n : Nat} (hn : extLength sss n = true) :
    (extControl sss n).toNat = 224 + 4 * sss.toNat + (n - 1) / 256 := by
  have := extLength_iff.mp hn
  have := sss.isLt
  simp only [extControl, BitVec.toNat_ofNat]
  omega

theorem isExtended_extControl {sss : BitVec 3} {n : Nat} (hn : extLength sss n = true) :
    IsExtended (extControl sss n) := by
  have := extLength_iff.mp hn
  have := sss.isLt
  rw [isExtended_iff, toNat_extControl hn]
  omega

theorem selector_extControl {sss : BitVec 3} {n : Nat} (hn : extLength sss n = true) :
    selector (extControl sss n) = sss := by
  have := extLength_iff.mp hn
  rw [selector_eq_iff, toNat_extControl hn]
  omega

theorem extCount_extControl {sss : BitVec 3} {n : Nat} (hn : extLength sss n = true) :
    extCount (extControl sss n) (countByte n) = n := by
  have := extLength_iff.mp hn
  rw [extCount_eq, toNat_extControl hn, countByte, BitVec.toNat_ofNat]
  omega

theorem extControl_extCount {c : Byte} {sss : BitVec 3} (hc : IsExtended c) (hs : selector c = sss) (k : Byte) :
    extControl sss (extCount c k) = c := by
  apply BitVec.eq_of_toNat_eq
  have hfamily := hc.1
  have := k.isLt
  rw [extControl, extCount_eq, ← hs, selector_toNat, BitVec.toNat_ofNat]
  omega

theorem countByte_extCount (c k : Byte) : countByte (extCount c k) = k := by
  apply BitVec.eq_of_toNat_eq
  have := k.isLt
  rw [countByte, extCount_eq, BitVec.toNat_ofNat]
  omega

theorem extLength_extCount {c : Byte} {sss : BitVec 3} (hc : IsExtended c) (hs : selector c = sss) (k : Byte) :
    extLength sss (extCount c k) = true := by
  have := isExtended_iff.mp hc
  have := k.isLt
  rw [extLength_iff, extCount_eq, ← hs, selector_toNat]
  omega

/-! ### The offset (R97) -/

theorem offsetLE_offsetLo_offsetHi (o : Half) : offsetLE (offsetLo o) (offsetHi o) = o := by
  apply BitVec.eq_of_toNat_eq
  have := o.isLt
  rw [Machine.toNat_offsetLE, offsetLo, offsetHi, BitVec.toNat_ofNat, BitVec.toNat_ofNat]
  omega

theorem offsetLo_offsetLE (lo hi : Byte) : offsetLo (offsetLE lo hi) = lo := by
  apply BitVec.eq_of_toNat_eq
  have := lo.isLt
  rw [offsetLo, Machine.toNat_offsetLE, BitVec.toNat_ofNat]
  omega

theorem offsetHi_offsetLE (lo hi : Byte) : offsetHi (offsetLE lo hi) = hi := by
  apply BitVec.eq_of_toNat_eq
  have := lo.isLt
  have := hi.isLt
  rw [offsetHi, Machine.toNat_offsetLE, BitVec.toNat_ofNat]
  omega

/-- Settles O5: each assembly is the model's own sum, and the encoder's fields reach every value. -/
theorem operandAssemblyIsExact : Obligations.OperandAssemblyIsExact := by
  refine ⟨fun c => ⟨shortCount_eq c, Nat.le_add_left 1 _, shortCount_le c⟩,
    fun c k => ⟨?_, Nat.le_add_left 1 _, extCount_le c k⟩, fun n h1 h2 => ?_,
    Machine.toNat_offsetLE, fun o => ⟨_, _, offsetLE_offsetLo_offsetHi o⟩⟩
  · rw [extCount_eq, Nat.mul_comm]
  · have hn : extLength 0 n = true := extLength_iff.mpr ⟨h1, h2, by simp⟩
    exact ⟨_, _, extCount_extControl hn⟩

/-! ### The opcode map (R99) -/

theorem XSel.wf_iff {x : XSel} : x.wf = true ↔
    (x.literal ≠ x.fill ∧ x.literal ≠ x.pair ∧ x.literal ≠ x.rel) ∧
    (x.fill ≠ x.pair ∧ x.fill ≠ x.rel) ∧ x.pair ≠ x.rel := by
  simp [XSel.wf, and_assoc]

theorem XSel.assigned_eq_false_iff {x : XSel} {sss : BitVec 3} : x.assigned sss = false ↔
    sss ≠ x.literal ∧ sss ≠ x.fill ∧ sss ≠ x.pair ∧ sss ≠ x.rel := by
  simp [XSel.assigned, and_assoc]

theorem reservedControl_iff {x : XSel} {c : Byte} :
    reservedControl x c = true ↔ IsExtended c ∧ x.assigned (selector c) = false := by
  have hfamily : c.extractLsb' 5 3 = 7 ↔ c.toNat / 32 = 7 := by
    rw [← BitVec.toNat_inj, ← family_toNat]
    rfl
  simp only [reservedControl, IsExtended, selector, Bool.and_eq_true, beq_iff_eq, bne_iff_ne, Bool.not_eq_true',
    hfamily]
  rfl

/-- Which control bytes select a form. Where two operations share a selector, the earlier one has it, so that this
holds of every XSEL (R99, R170). -/
def Form.Selects (x : XSel) (c : Byte) : Form → Prop
  | .lit => c.toNat / 32 = 0
  | .fill => c.toNat / 32 = 1
  | .pair => c.toNat / 32 = 2
  | .ramp => c.toNat / 32 = 3
  | .acpy => c.toNat / 32 = 4
  | .ainv => c.toNat / 32 = 5
  | .rcpy => c.toNat / 32 = 6
  | .xlit => IsExtended c ∧ selector c = x.literal
  | .xfill => IsExtended c ∧ selector c = x.fill ∧ selector c ≠ x.literal
  | .xpair => IsExtended c ∧ selector c = x.pair ∧ selector c ≠ x.literal ∧ selector c ≠ x.fill
  | .xrcpy => IsExtended c ∧ selector c = x.rel ∧ selector c ≠ x.literal ∧ selector c ≠ x.fill ∧
      selector c ≠ x.pair
  | .xrsv => IsExtended c ∧ x.assigned (selector c) = false
  | .endStream => c = 0xFF#8

theorem formOf_eq_extForm {c : Byte} (x : XSel) (hc : IsExtended c) : formOf x c = extForm x c := by
  simp [formOf, family_toNat, hc.1, hc.2]

theorem formOf_of_selects {x : XSel} {c : Byte} {f : Form} (h : f.Selects x c) : formOf x c = f := by
  cases f <;> simp only [Form.Selects] at h
  case endStream => simp [formOf, h]
  case xlit | xfill | xpair | xrcpy | xrsv =>
    rw [formOf_eq_extForm x h.1, extForm]
    split_ifs <;> simp_all [XSel.assigned_eq_false_iff]
  all_goals
    have hne : c ≠ 0xFF#8 := fun hend => by simp [hend] at h
    simp [formOf, family_toNat, hne, h]

theorem selects_formOf (x : XSel) (c : Byte) : (formOf x c).Selects x c := by
  by_cases hend : c = 0xFF#8
  · simp [formOf, hend, Form.Selects]
  by_cases h7 : c.toNat / 32 = 7
  · have hc : IsExtended c := ⟨h7, hend⟩
    rw [formOf_eq_extForm x hc, extForm]
    split_ifs <;> simp_all [Form.Selects, XSel.assigned_eq_false_iff]
  · have hlt : c.toNat / 32 < 7 := by
      have := c.isLt
      omega
    interval_cases hf : c.toNat / 32 <;> simp [formOf, hend, family_toNat, hf, Form.Selects]

/-- The opcode map says of every control byte which form it selects, and of no byte two (R99). -/
theorem formOf_eq_iff {x : XSel} {c : Byte} {f : Form} : formOf x c = f ↔ f.Selects x c :=
  ⟨fun h => h ▸ selects_formOf x c, formOf_of_selects⟩

/-- Settles O3: each clause is the row of the opcode map for its form, and distinct selectors exclude the earlier
operations; the sixteen ranges of the default are checked at each of the 256 bytes. -/
theorem opcodeMapSelectsTheForm : Obligations.OpcodeMapSelectsTheForm := by
  refine ⟨fun x c hx => ?_, fun c => ?_⟩
  · obtain ⟨⟨hlf, hlp, hlr⟩, ⟨hfp, hfr⟩, hpr⟩ := XSel.wf_iff.mp hx
    simp only [formOf_eq_iff, ← selector_toNat, BitVec.toNat_inj, ne_eq]
    refine ⟨id, id, id, id, id, id, id, id, fun h7 hne => ?_⟩
    have hc : IsExtended c := ⟨h7, hne⟩
    refine ⟨fun h => ⟨hc, h⟩, fun h => ⟨hc, h, ?_⟩, fun h => ⟨hc, h, ?_, ?_⟩, fun h => ⟨hc, h, ?_, ?_, ?_⟩,
      fun hl hf hp hr => ⟨hc, XSel.assigned_eq_false_iff.mpr ⟨hl, hf, hp, hr⟩⟩⟩
    all_goals rw [h]; apply Ne.symm; assumption
  · decide +revert

/-! ### Decode after encode (R96, R104) -/

/-- The form of an instruction (R99). -/
def Instr.form : Instr → Form
  | .lit _ => .lit
  | .fill _ _ => .fill
  | .pair _ _ _ => .pair
  | .ramp _ _ => .ramp
  | .acpy _ _ => .acpy
  | .ainv _ _ => .ainv
  | .rcpy _ _ => .rcpy
  | .xlit _ => .xlit
  | .xfill _ _ => .xfill
  | .xpair _ _ _ => .xpair
  | .xrcpy _ _ => .xrcpy
  | .xrsv _ => .xrsv
  | .endStream => .endStream

theorem takeBytes_append (d rest : List Byte) : takeBytes d.length (d ++ rest) = some d :=
  takeBytes_eq_some.mpr ⟨by simp, by simp⟩

theorem eq_append_of_takeBytes {n : Nat} {bs d : List Byte} (h : takeBytes n bs = some d) :
    d.length = n ∧ ∃ rest, bs = d ++ rest := by
  obtain ⟨hn, rfl⟩ := takeBytes_eq_some.mp h
  exact ⟨List.length_take_of_le hn, bs.drop n, (List.take_append_drop n bs).symm⟩

/-- The control byte of an admitted instruction selects its form (R99, R104). -/
theorem selects_controlByte {x : XSel} {i : Instr} (hx : x.wf = true) (hi : i.wf x = true) :
    i.form.Selects x (controlByte x i) := by
  obtain ⟨⟨hlf, hlp, hlr⟩, ⟨hfp, hfr⟩, hpr⟩ := XSel.wf_iff.mp hx
  cases i <;> simp only [Instr.wf] at hi
  case endStream => rfl
  case xrsv c => exact reservedControl_iff.mp hi
  case xlit | xfill | xpair | xrcpy =>
    simp [Instr.form, Form.Selects, controlByte, isExtended_extControl hi, selector_extControl hi, Ne.symm, *]
  all_goals exact family_shortControl (by decide) hi

/-- The operands of an admitted instruction are read back whole, whatever bytes follow them (R96). -/
theorem readOperands_operandBytes {x : XSel} {i : Instr} (hi : i.wf x = true) (rest : List Byte) :
    readOperands (controlByte x i) (operandBytes i ++ rest) i.form = some i := by
  cases i <;> simp only [Instr.wf] at hi
  case xrsv | endStream => rfl
  case xlit | xfill | xpair | xrcpy =>
    simp [Instr.form, readOperands, controlByte, operandBytes, extCount_extControl hi, takeBytes_append]
  all_goals
    simp [Instr.form, readOperands, controlByte, operandBytes, shortCount_shortControl _ hi, takeBytes_append,
      offsetLE_offsetLo_offsetHi]

theorem decode_encode_of_selects {x : XSel} {i : Instr} (hi : i.wf x = true)
    (hf : i.form.Selects x (controlByte x i)) (rest : List Byte) : decode x (encode x i ++ rest) = .ok i := by
  rw [encode, List.cons_append, decode_cons, formOf_of_selects hf, readOperands_operandBytes hi]

/-- Settles O1: the control byte selects the form, and the form's operands are read back. -/
theorem decodeOfEncode : Obligations.DecodeOfEncode := fun _ _ rest hx hi =>
  decode_encode_of_selects hi (selects_controlByte hx hi) rest

/-! ### Encode after decode (R99, R100, R102) -/

theorem decode_cons_eq_ok {x : XSel} {c : Byte} {bs : List Byte} {i : Instr} :
    decode x (c :: bs) = .ok i ↔ readOperands c bs (formOf x c) = some i := by
  rw [decode_cons]
  cases readOperands c bs (formOf x c) <;> simp

/-- What a form's operands give is admitted, and control byte and operands are its encoding (R104). -/
theorem readOperands_sound {x : XSel} {c : Byte} {bs : List Byte} {f : Form} {i : Instr}
    (hf : f.Selects x c) (h : readOperands c bs f = some i) :
    i.wf x = true ∧ ∃ rest, c :: bs = encode x i ++ rest := by
  cases f <;> simp only [Form.Selects] at hf
  case endStream =>
    obtain rfl := Option.some.inj h
    exact ⟨rfl, bs, by rw [hf]; rfl⟩
  case xrsv =>
    obtain rfl := Option.some.inj h
    exact ⟨reservedControl_iff.mpr hf, bs, rfl⟩
  case lit =>
    obtain ⟨d, hd, rfl⟩ := Option.map_eq_some_iff.mp h
    obtain ⟨hn, rest, rfl⟩ := eq_append_of_takeBytes hd
    refine ⟨by rw [Instr.wf, hn]; exact shortLength_shortCount c, rest, ?_⟩
    rw [encode, controlByte, operandBytes, hn, shortControl_shortCount hf, List.cons_append]
  case xlit =>
    obtain ⟨hc, hs⟩ := hf
    obtain _ | ⟨k, ds⟩ := bs
    · simp [readOperands] at h
    · obtain ⟨d, hd, rfl⟩ := Option.map_eq_some_iff.mp h
      obtain ⟨hn, rest, rfl⟩ := eq_append_of_takeBytes hd
      refine ⟨by rw [Instr.wf, hn]; exact extLength_extCount hc hs k, rest, ?_⟩
      rw [encode, controlByte, operandBytes, hn, extControl_extCount hc hs, countByte_extCount, List.cons_append,
        List.cons_append]
  case xfill | xpair | xrcpy =>
    obtain ⟨hc, hs, -⟩ := hf
    obtain _ | ⟨k, _ | ⟨b0, _ | ⟨b1, bs⟩⟩⟩ := bs <;>
      simp only [readOperands, Option.some.injEq, reduceCtorEq] at h <;> subst h <;>
      simp [Instr.wf, encode, controlByte, operandBytes, extLength_extCount hc hs, extControl_extCount hc hs,
        countByte_extCount]
  all_goals
    obtain _ | ⟨b0, _ | ⟨b1, bs⟩⟩ := bs <;>
      simp only [readOperands, Option.some.injEq, reduceCtorEq] at h <;> subst h <;>
      simp [Instr.wf, encode, controlByte, operandBytes, shortLength_shortCount, shortControl_shortCount hf,
        offsetLo_offsetLE, offsetHi_offsetLE]

/-- Settles O2: the opcode map gives the control byte's fields, the form's operands the bytes after it. -/
theorem decodedBytesAreTheEncoding : Obligations.DecodedBytesAreTheEncoding := by
  intro x bs i h
  cases bs with
  | nil => simp at h
  | cons c bs => exact readOperands_sound (selects_formOf x c) (decode_cons_eq_ok.mp h)

/-! ### The sentinel, and words of the tables (R93) -/

/-- Settles O4: END's encoding is the byte 0xFF alone, and a literal run of 0xFF is encoded as those bytes. -/
theorem onlyControlByteFFIsEnd : Obligations.OnlyControlByteFFIsEnd := by
  refine ⟨fun x bs => decode_encode_of_selects (i := .endStream) rfl rfl bs, fun x c bs h => ?_,
    fun x n bs h1 h32 => ?_⟩
  · obtain ⟨-, rest, hbytes⟩ := decodedBytesAreTheEncoding x _ _ h
    exact (List.cons.inj hbytes).1
  · have hn : shortLength n = true := shortLength_iff.mpr ⟨h1, h32⟩
    have hi : (Instr.lit (List.replicate n 0xFF#8)).wf x = true := by simpa [Instr.wf] using hn
    have hf : (shortControl 0 n).toNat / 32 = 0 := family_shortControl (by decide) hn
    simpa [encode, controlByte, operandBytes, shortControl] using
      decode_encode_of_selects hi (by simpa [Instr.form, Form.Selects, controlByte] using hf) bs

/-- Settles O6 by running the decoder on the ten words. -/
theorem writtenOutWordsDecode : Obligations.WrittenOutWordsDecode := by
  unfold Obligations.WrittenOutWordsDecode
  decide

end Sys2Proof
end

section
/-! SUPPORT. The step of DEC (40_dispatch_and_end): what is fetched where SRC holds an encoding or ends, and what the
step then does to the cursor. -/

namespace Sys2Proof

/-- No admitted instruction is longer than the window of the stream the fetch looks at (R90). -/
theorem Instr.length_le_maxLength {x : XSel} {i : Instr} (hi : i.wf x = true) : i.length ≤ maxLength := by
  cases i <;> simp only [Instr.wf, shortLength_iff, extLength_iff] at hi <;> simp only [Instr.length, maxLength] <;>
    omega

end Sys2Proof

namespace Sys2Proof.Machine

variable {s t : State}

/-! ### Whose step it is -/

theorem step_of_empty (hi : s.inbox = []) : step s = agentTurn s := by
  simp only [step, hi]

theorem step_of_decode (hp : s.phase = .decode) (hi : s.inbox = []) : step s = decStep s := by
  rw [step_of_empty hi, agentTurn_of_decode hp]

theorem decStep_of_ok {i : Instr} (h : s.fetch = .ok i) : decStep s = exec i s := by
  simp only [decStep, h]

theorem decStep_of_error {e : DecodeError} (h : s.fetch = .error e) : decStep s = .next (fetchFault s e) := by
  simp only [decStep, h]

theorem agentTurn_of_ok {i : Instr} (hp : s.phase = .decode) (h : s.fetch = .ok i) : agentTurn s = exec i s := by
  rw [agentTurn_of_decode hp, decStep_of_ok h]

/-! ### What is fetched -/

theorem srcBytes_add (s : State) (a m n : Nat) :
    s.srcBytes a (m + n) = s.srcBytes a m ++ s.srcBytes (a + m) n := by
  simp [State.srcBytes, ← List.range'_append_1]

/-- Where SRC holds an encoding at the program counter, the remaining stream begins with it. -/
theorem stream_of_srcBytes {i : Instr} (hi : i.wf s.cfg.xsel = true) (hin : s.Has i.length)
    (hb : s.srcBytes s.srcAddr i.length = encode s.cfg.xsel i) :
    ∃ rest, s.stream = encode s.cfg.xsel i ++ rest := by
  have hmax := Instr.length_le_maxLength hi
  have hwindow : min maxLength s.remaining = i.length + (min maxLength s.remaining - i.length) := by
    unfold State.Has at hin
    unfold State.remaining State.srcAddr
    omega
  exact ⟨_, by rw [State.stream, hwindow, srcBytes_add, hb]⟩

theorem fetch_of_srcBytes {i : Instr} (hx : s.cfg.xsel.wf = true) (hi : i.wf s.cfg.xsel = true)
    (hin : s.Has i.length) (hb : s.srcBytes s.srcAddr i.length = encode s.cfg.xsel i) : s.fetch = .ok i := by
  obtain ⟨rest, hs⟩ := stream_of_srcBytes hi hin hb
  rw [State.fetch, hs]
  exact decodeOfEncode _ _ rest hx hi

theorem fetch_of_exhausted (h : s.cfg.srcSize ≤ s.srcBase + s.srcPos) : s.fetch = .error .noControlByte := by
  rw [State.fetch, stream_nil h, decode_nil]

theorem fetch_of_sentinel (h : s.AtControl 0xFF) : s.fetch = .ok .endStream := by
  obtain ⟨-, -, hlt, hc⟩ := h
  rw [State.fetch, stream_cons hlt, State.srcAddr, hc]
  exact onlyControlByteFFIsEnd.1 _ _

/-- Settles O7: the step fetches the instruction whose encoding SRC holds, whatever the inbox. -/
theorem stepRunsTheDecodedInstruction : Obligations.StepRunsTheDecodedInstruction := by
  intro s i hp hx hi hin hb
  have hf : s.fetch = .ok i := fetch_of_srcBytes hx hi hin hb
  refine ⟨fun hbox => ?_, fun turns hbox => ?_⟩
  · rw [step_of_decode hp hbox, decStep_of_ok hf]
  · rw [step_of_agentTurn (.inl hbox)]
    exact agentTurn_of_ok (s := { s with inbox := turns }) hp hf

/-- Settles O9: with no byte left there is no control byte, and the fetch raises before it reads. -/
theorem missingControlByteExhausts : Obligations.MissingControlByteExhausts := by
  intro s hp hbox hend
  rw [step_of_decode hp hbox, decStep_of_error (fetch_of_exhausted hend)]
  rfl

/-- Settles O23: the meaning of END by definition, and the fetch of a control byte 0xFF is END. -/
theorem endWritesCompSize : Obligations.EndWritesCompSize := by
  refine ⟨fun s => rfl, fun s h => ?_⟩
  have ⟨hp, hbox, _⟩ := h
  rw [step_of_decode hp hbox, decStep_of_ok (fetch_of_sentinel h)]

/-! ### The cursor (R124, R125) -/

/-- A fetch fault consumes every byte that was there, none where there was none. -/
theorem fetchFault_srcPos {e : DecodeError} (h : s.fetch = .error e) :
    (fetchFault s e).srcPos = s.srcPos + (s.cfg.srcSize - (s.srcBase + s.srcPos)) := by
  obtain ⟨hend, heq⟩ | ⟨-, heq⟩ := fetchFault_cases h <;> rw [heq]
  · rw [Nat.sub_eq_zero_of_le hend]
    rfl
  · rfl

theorem fetchFault_err (s : State) (e : DecodeError) : (fetchFault s e).err = .sourceExhausted := by
  cases e <;> rfl

/-- Settles O10: a fetched opcode advances the cursor by its length, a fetch fault to the end of SRC. -/
theorem streamPositionAdvance : Obligations.StreamPositionAdvance := by
  intro s t hp hbox h
  rw [step_of_decode hp hbox] at h
  refine ⟨fun i hi => ?_, fun e he => ?_⟩
  · rw [decStep_of_ok hi] at h
    obtain ⟨-, -, hpos, -⟩ := instructionFrame i s t h
    rw [hpos]
    cases i <;> rfl
  · rw [decStep_of_error he] at h
    cases h
    exact ⟨fetchFault_srcPos he, fetchFault_err s e⟩

/-- A step of DEC that does not fault consumes at least one byte of SRC, and ends the decode or goes on. -/
theorem decStep_progress (hp : s.phase = .decode) (h : decStep s = .next t) :
    t.phase = .fault ∨
    (t.phase = .decoded ∨ t.phase = .decode) ∧ s.srcPos < t.srcPos ∧ s.srcBase + t.srcPos ≤ s.cfg.srcSize := by
  obtain ⟨i, hi, ho⟩ | ⟨e, -, rfl⟩ := decStep_cases h
  · have hin : s.srcBase + (s.srcPos + i.length) ≤ s.cfg.srcSize := Nat.add_assoc .. ▸ fetch_ok_inside hi
    have hpos : s.srcPos < s.srcPos + i.length := Nat.lt_add_of_pos_right i.length_pos
    obtain ⟨e, -, rfl⟩ | ⟨rfl, rfl⟩ | ⟨new, -, -, rfl⟩ := ho
    · exact .inl rfl
    · exact .inr ⟨.inl rfl, hpos, hin⟩
    · exact .inr ⟨.inr hp, hpos, hin⟩
  · cases e <;> exact .inl rfl

/-! ### Runs -/

theorem run_succ (h : step s = .next t) (k : Nat) : core.run (k + 1) s = core.run k t := by
  simp only [Host.Core.run, core, h]

/-- What every step keeps, a run keeps. -/
theorem run_keeps {P : State → Prop} (hstep : ∀ s t, P s → step s = .next t → P t) {n : Nat} (hs : P s)
    (h : core.run n s = .next t) : P t := by
  induction n generalizing s with
  | zero =>
    cases h
    exact hs
  | succ n ih =>
    cases hst : step s with
    | next u => exact ih (hstep s u hs hst) (run_succ hst n ▸ h)
    | fault r | refused r => simp [Host.Core.run, core, hst] at h

theorem fetchFault_inbox (s : State) (e : DecodeError) : (fetchFault s e).inbox = s.inbox := by
  cases e <;> rfl

/-- The agents leave the host's turns alone (entry 8). -/
theorem agentTurn_inbox (h : agentTurn s = .next t) : t.inbox = s.inbox := by
  obtain ⟨-, h⟩ | ⟨-, h⟩ | ⟨-, -, rfl⟩ := agentTurn_cases h
  · obtain ⟨i, -, ⟨e, -, rfl⟩ | ⟨-, rfl⟩ | ⟨new, -, -, rfl⟩⟩ | ⟨e, -, rfl⟩ := decStep_cases h
    · rfl
    · rfl
    · rfl
    · exact fetchFault_inbox s e
  · obtain ⟨-, rfl⟩ | ⟨-, -, u, -, rfl⟩ := renStep_cases h <;> rfl
  · rfl

theorem step_empty_inbox (hbox : s.inbox = []) (h : step s = .next t) : t.inbox = [] := by
  rw [step_of_empty hbox] at h
  rw [agentTurn_inbox h, hbox]

/-- By induction on the bytes left: the step ends the decode, or leaves fewer bytes for the rest of the run. -/
theorem decode_terminates (hp : s.phase = .decode) (hbox : s.inbox = []) :
    ∃ k t, k ≤ s.remaining + 1 ∧ core.run k s = .next t ∧ (t.phase = .decoded ∨ t.phase = .fault) := by
  induction hn : s.remaining using Nat.strong_induction_on generalizing s with
  | h n ih =>
    obtain ⟨u, hu⟩ := decStep_next s
    have hstep : step s = .next u := (step_of_decode hp hbox).trans hu
    have once (hend : u.phase = .decoded ∨ u.phase = .fault) :
        ∃ k t, k ≤ n + 1 ∧ core.run k s = .next t ∧ (t.phase = .decoded ∨ t.phase = .fault) :=
      ⟨1, u, Nat.le_add_left 1 n, run_succ hstep 0, hend⟩
    obtain hfault | ⟨hdecoded | hdecode, hpos, hin⟩ := decStep_progress hp hu
    · exact once (.inr hfault)
    · exact once (.inl hdecoded)
    · obtain ⟨hcfg, -, hbase, -, -⟩ := agentTurn_sameLaunchData ((agentTurn_of_decode hp).trans hu)
      have hless : u.remaining < n := by
        rw [← hn, State.remaining, State.remaining, State.srcAddr, State.srcAddr, hcfg, hbase]
        omega
      obtain ⟨k, t, hk, hrun, hend⟩ := ih _ hless hdecode (step_empty_inbox hbox hstep) rfl
      exact ⟨k + 1, t, by omega, (run_succ hstep k).trans hrun, hend⟩

/-- Settles O57: the bytes left bound the steps, since each one consumes a byte or faults. -/
theorem decodeEnds : Obligations.DecodeEnds := by
  intro s hp hbox
  obtain ⟨k, t, hk, hrun, hend⟩ := decode_terminates hp hbox
  refine ⟨k, t, hk, hrun, hend, fun j u v hu hup huv => ?_⟩
  have hubox : u.inbox = [] := run_keeps (P := fun s => s.inbox = []) (fun _ _ => step_empty_inbox) hbox hu
  rw [step_of_decode hup hubox] at huv
  obtain hfault | ⟨-, hpos, -⟩ := decStep_progress hup huv
  · exact .inl hfault
  · exact .inr hpos

/-! ### No step stops the machine (R125, R212) -/

/-- Before the last tile of a render, the next record lies in OUT and its pixels in RASTER (R212). -/
theorem renStep_next (h : Inv s) (hp : s.phase = .render) : ∃ t, renStep s = .next t := by
  obtain ⟨htiles, hrows, hmul, hidx, -⟩ := h.latches_set (.inl hp)
  unfold State.outLen at htiles hrows
  by_cases hdone : s.tileIdx = s.tTiles
  · exact ⟨_, if_pos hdone⟩
  · have hrecord : ((s.out.drop (32 * s.tileIdx)).take 32).length = 32 := by
      rw [List.length_take, List.length_drop]
      omega
    have hrow : composeY s.tileIdx 7 < s.rasterH := by
      unfold composeY
      omega
    exact ⟨_, by rw [renStep, if_neg hdone, tileRecord, dif_pos hrecord]; exact if_pos hrow⟩

theorem agentTurn_next (h : Inv s) : ∃ t, agentTurn s = .next t := by
  cases hp : s.phase with
  | decode => exact agentTurn_of_decode hp ▸ decStep_next s
  | render => exact agentTurn_of_render hp ▸ renStep_next h hp
  | idle | decoded | rendered | fault => exact ⟨s, agentTurn_of_neither (by simp [hp])⟩

/-- A host move is made or ignored, but for the two writes of SRC that are no moves the host has (entry 11). -/
theorem hostMove_next_or_refused (m : HostMove) (s : State) :
    (∃ t, hostMove m s = .next t) ∨
    ∃ r, hostMove m s = .refused r ∧ ∃ a v, m = .writeSrc a v ∧
      ((r = .srcWriteOutsideIdle ∧ s.phase ≠ .idle) ∨
       (r = .srcAddressAbsent ∧ s.phase = .idle ∧ s.cfg.srcSize ≤ a)) := by
  cases m with
  | cmd v | hardReset => exact .inl ⟨_, rfl⟩
  | setSrcBase v | setPalSel v | palPush v =>
    by_cases hp : s.phase = .idle
    · exact .inl ⟨_, if_pos hp⟩
    · exact .inl ⟨_, if_neg hp⟩
  | writeSrc a v =>
    by_cases hp : s.phase = .idle
    · by_cases ha : a < s.cfg.srcSize
      · exact .inl ⟨_, hostMove_writeSrc hp ha v⟩
      · have ha := Nat.le_of_not_lt ha
        exact .inr ⟨_, hostMove_writeSrc_absent hp ha v, a, v, rfl, .inr ⟨rfl, hp, ha⟩⟩
    · exact .inr ⟨_, if_neg hp, a, v, rfl, .inl ⟨rfl, hp⟩⟩

/-- Settles O55: the invariant gives both agents a step, and the host's moves are all made but for the two. -/
theorem noStepStopsTheMachine : Obligations.NoStepStopsTheMachine := by
  intro s h
  match hbox : s.inbox with
  | [] => exact .inl (step_of_empty hbox ▸ agentTurn_next h)
  | none :: rest => exact .inl (step_of_agentTurn (.inl hbox) ▸ agentTurn_next (h.of_inbox rest))
  | some m :: rest =>
    rw [step_of_hostMove hbox]
    exact (hostMove_next_or_refused m _).imp_right fun ⟨r, hr, hw⟩ => ⟨m, r, rfl, hr, hw⟩

end Sys2Proof.Machine
end

section
/-! SUPPORT. What an opcode does is decided by OUT, OUT_CAP and the instruction alone (40 R128, 41 to 44): the verdict
on it, and the two statements on whole decodes that follow. -/

namespace Sys2Proof.Machine

variable {s t u : State}

/-! ### The closed form of the relative copies (R162) -/

theorem cycleRun_succ (out : List Byte) (n b : Nat) :
    cycleRun out (n + 1) b = cycleRun out n b ++ [out.getD (out.length - b + n % b) 0] := by
  simp [cycleRun, List.range_succ]

@[simp] theorem length_cycleRun (out : List Byte) (n b : Nat) : (cycleRun out n b).length = n := by
  simp [cycleRun]

/-- The byte the loop reads after `k` rounds: one of OUT's last `b`, or one that it has appended since. -/
theorem getElem?_append_cycleRun {out : List Byte} {b : Nat} (hb : 1 ≤ b) (hle : b ≤ out.length) (k : Nat) :
    (out ++ cycleRun out k b)[out.length - b + k]? = some (out.getD (out.length - b + k % b) 0) := by
  by_cases hk : k < b
  · have hlt : out.length - b + k < out.length := by omega
    rw [List.getElem?_append_left hlt, Nat.mod_eq_of_lt hk, List.getD_eq_getElem?_getD, List.getElem?_eq_getElem hlt,
      Option.getD_some]
  · have hpos : out.length - b + k = out.length + (k - b) := by omega
    have hlt : k - b < k := by omega
    rw [hpos, List.getElem?_append_right (Nat.le_add_right _ _), Nat.add_sub_cancel_left, cycleRun,
      List.getElem?_map, List.getElem?_range hlt, Option.map_some, ← Nat.mod_eq_sub_mod (Nat.le_of_not_lt hk)]

theorem relLoop_cycleRun {out : List Byte} {b : Nat} (hb : 1 ≤ b) (hle : b ≤ out.length) (n k : Nat) :
    relLoop n (out.length - b + k) (out ++ cycleRun out k b) = some (out ++ cycleRun out (k + n) b) := by
  induction n generalizing k with
  | zero => rfl
  | succ n ih =>
    simp only [relLoop, getElem?_append_cycleRun hb hle k]
    rw [List.append_assoc, ← cycleRun_succ, Nat.add_assoc, ih (k + 1)]
    congr 3
    omega

/-! ### The verdict on an opcode -/

/-- A run that is committed whole or overflows (R134). -/
def fitted (c : Config) (out new : List Byte) : Except ErrCode (List Byte) :=
  if capAllows c (out.length + new.length) then .ok new else .error .outputOverflow

/-- What a fetched opcode other than END comes to: the bytes it appends, or the fault it raises. -/
def verdict (c : Config) (out : List Byte) (i : Instr) : Except ErrCode (List Byte) :=
  match produced out i with
  | some new => fitted c out new
  | none => .error (if i.form = .xrsv then .malformedOpcode else .outOfRangeReference)

/-- The state after the opcode `i` with its verdict. -/
def State.completes (s : State) (i : Instr) : Except ErrCode (List Byte) → State
  | .ok new => s.appends (controlByte s.cfg.xsel i) i.length new
  | .error e => s.raises (controlByte s.cfg.xsel i) i.length e

section
variable (s : State) (c : Byte) (len : Nat) (new : List Byte)

@[simp] theorem appends_srcBase : (s.appends c len new).srcBase = s.srcBase := rfl
@[simp] theorem appends_srcPos : (s.appends c len new).srcPos = s.srcPos + len := rfl
@[simp] theorem appends_srcAddr : (s.appends c len new).srcAddr = s.srcAddr + len := (Nat.add_assoc ..).symm

end

theorem commit_consume (s : State) (i : Instr) (new : List Byte) :
    commit s (s.consume i) new = s.completes i (fitted s.cfg s.out new) := by
  by_cases h : s.Fits new.length
  · rw [commit_eq_append (s := s.consume i) h, fitted, if_pos ((fits_iff _ _).mp h)]
    rfl
  · rw [commit_eq_overflow (s := s.consume i) h, fitted, if_neg (mt (fits_iff _ _).mpr h)]
    rfl

theorem absCopy_consume (s : State) (i : Instr) (n : Nat) (o : Half) (f : Byte → Byte) :
    absCopy s (s.consume i) n o f = s.completes i (if o.toNat + n ≤ s.out.length then
      fitted s.cfg s.out (((s.out.drop o.toNat).take n).map f) else .error .outOfRangeReference) := by
  obtain ⟨hout, heq⟩ | ⟨hin, -, heq⟩ := absCopy_cases s (s.consume i) n o f <;> rw [consume_out] at *
  · rw [heq, if_neg (Nat.not_le_of_lt hout)]
    rfl
  · rw [heq, if_pos hin, commit_consume]

theorem relCopy_consume (s : State) (i : Instr) (n : Nat) (b : Byte) :
    relCopy s (s.consume i) n b = s.completes i (if 1 ≤ b.toNat ∧ b.toNat ≤ s.out.length then
      fitted s.cfg s.out (cycleRun s.out n b.toNat) else .error .outOfRangeReference) := by
  have hzero : b = 0#8 ↔ b.toNat = 0 := BitVec.toNat_inj.symm
  by_cases h : 1 ≤ b.toNat ∧ b.toNat ≤ s.out.length
  · have hloop := relLoop_cycleRun h.1 h.2 n 0
    have hin : ¬ (b = 0#8 ∨ s.out.length < b.toNat) := by rw [hzero]; omega
    rw [if_pos h, relCopy, consume_out, if_neg hin, fitted, length_cycleRun]
    simp only [cycleRun, List.range_zero, List.map_nil, List.append_nil, Nat.add_zero, Nat.zero_add] at hloop
    simp only [consume_cfg, hloop]
    split <;> rfl
  · have hout : b = 0#8 ∨ s.out.length < b.toNat := by rw [hzero]; omega
    rw [if_neg h, relCopy, consume_out, if_pos hout]
    rfl

/-- Every opcode but END completes or faults as its verdict says, and its meaning does nothing else. -/
theorem exec_eq_completes {i : Instr} (hi : i ≠ .endStream) (s : State) :
    exec i s = .next (s.completes i (verdict s.cfg s.out i)) := by
  cases i with
  | lit | fill | pair | ramp | xlit | xfill | xpair => exact congrArg Host.Outcome.next (commit_consume s _ _)
  | acpy n o =>
    refine congrArg Host.Outcome.next ((absCopy_consume s _ n o _).trans ?_)
    simp only [verdict, produced, List.map_id']
    split <;> rfl
  | ainv n o =>
    refine congrArg Host.Outcome.next ((absCopy_consume s _ n o _).trans ?_)
    simp only [verdict, produced]
    split <;> rfl
  | rcpy n b | xrcpy n b =>
    refine congrArg Host.Outcome.next ((relCopy_consume s _ n b).trans ?_)
    simp only [verdict, produced]
    split <;> rfl
  | xrsv ctl => rfl
  | endStream => exact absurd rfl hi

/-! ### A stream of encodings (R120, R122) -/

theorem exec_of_produced {i : Instr} {new : List Byte} (hnew : produced s.out i = some new)
    (hfit : capAllows s.cfg (s.out.length + new.length) = true) :
    exec i s = .next (s.appends (controlByte s.cfg.xsel i) i.length new) := by
  have hi : i ≠ .endStream := by
    rintro rfl
    cases hnew
  simp only [exec_eq_completes hi, verdict, hnew, fitted, if_pos hfit, State.completes]

theorem producedAll_cons_eq_some {c : Config} {i : Instr} {is : List Instr} {out r : List Byte} :
    producedAll c (i :: is) out = some r ↔ ∃ new, produced out i = some new ∧
      capAllows c (out.length + new.length) = true ∧ producedAll c is (out ++ new) = some r := by
  cases hp : produced out i with
  | none => simp [producedAll, hp]
  | some new => simp [producedAll, hp]

/-- Settles O59, by induction on the opcodes: each step runs the first and leaves the bytes of the others. -/
theorem encodedStreamDecodesToItsBytes : Obligations.EncodedStreamDecodesToItsBytes := by
  intro s is
  induction is generalizing s with
  | nil =>
    intro out hp hbox _ _ hin hb hout
    cases hout
    have hat : s.AtControl 0xFF := ⟨hp, hbox, hin, (List.cons.inj hb).1⟩
    have hstep := (endWritesCompSize.2 s hat).trans (endWritesCompSize.1 s)
    exact ⟨_, run_succ hstep 0, rfl, rfl, rfl, rfl, rfl⟩
  | cons i is ih =>
    intro out hp hbox hx hwf hin hb hout
    obtain ⟨new, hnew, hfit, hrest⟩ := producedAll_cons_eq_some.mp hout
    have hlen : (encode s.cfg.xsel i).length = i.length := Laws.EncodeLength.statement_of i _
    simp only [List.flatMap_cons, List.length_append, hlen, Nat.add_assoc] at hin hb ⊢
    rw [srcBytes_add, List.append_assoc] at hb
    obtain ⟨hfirst, hothers⟩ := List.append_inj hb (by simp [hlen])
    have hinFirst : s.Has i.length := by
      unfold State.Has at hin ⊢
      omega
    have hstep : step s = .next (s.appends (controlByte s.cfg.xsel i) i.length new) := by
      rw [(stepRunsTheDecodedInstruction s i hp hx (hwf i List.mem_cons_self) hinFirst hfirst).1 hbox,
        exec_of_produced hnew hfit]
    have hinOthers : (s.appends (controlByte s.cfg.xsel i) i.length new).Has
        ((is.flatMap (encode s.cfg.xsel)).length + 1) := by
      simp only [State.Has, appends_srcBase, appends_srcPos, appends_cfg] at hin ⊢
      omega
    rw [← appends_srcAddr s (controlByte s.cfg.xsel i) i.length new] at hothers
    obtain ⟨t, hrun, hphase, hto, herr, hcomp, hpos⟩ := ih (s.appends _ _ new) out hp hbox hx
      (fun j hj => hwf j (List.mem_cons_of_mem i hj)) hinOthers hothers hrest
    refine ⟨t, (run_succ hstep _).trans hrun, hphase, hto, herr, ?_, hpos⟩
    rw [hcomp, appends_srcPos, Nat.add_assoc]
    rfl

/-! ### Two decodes of one stream (R128) -/

/-- Two machines, no host move pending, in the same state of decoding the same stream, each in its own SRC. -/
structure SameDecode (s u : State) : Prop where
  inbox : s.inbox = []
  inbox' : u.inbox = []
  phase : s.phase = u.phase
  notRender : u.phase ≠ .render
  xsel : s.cfg.xsel = u.cfg.xsel
  outCap : s.cfg.outCap = u.cfg.outCap
  err : s.err = u.err
  out : s.out = u.out
  srcPos : s.srcPos = u.srcPos
  opPos : s.opPos = u.opPos
  ctl : s.ctl = u.ctl
  compSize : s.compSize = u.compSize
  size : s.cfg.srcSize - s.srcBase = u.cfg.srcSize - u.srcBase
  bytes : ∀ k, s.srcPos ≤ k → k < s.cfg.srcSize - s.srcBase →
    s.srcByte (s.srcBase + k) = u.srcByte (u.srcBase + k)

theorem verdict_congr {c c' : Config} (h : c.outCap = c'.outCap) (out : List Byte) (i : Instr) :
    verdict c out i = verdict c' out i := by
  have hcap (n : Nat) : capAllows c n = capAllows c' n := by simp only [capAllows, h]
  simp only [verdict, fitted, hcap]

theorem srcBytes_congr {a b n : Nat} (h : ∀ k < n, s.srcByte (a + k) = u.srcByte (b + k)) :
    s.srcBytes a n = u.srcBytes b n :=
  List.ext_getElem (by simp) fun k hk _ => by simpa [State.srcBytes] using h k (by simpa using hk)

namespace SameDecode

theorem remaining (h : SameDecode s u) : s.remaining = u.remaining := by
  simp only [State.remaining, State.srcAddr, Nat.sub_add_eq, h.size, h.srcPos]

theorem stream (h : SameDecode s u) : s.stream = u.stream := by
  unfold State.stream
  rw [h.remaining]
  refine srcBytes_congr fun k hk => ?_
  have hend : s.srcPos + k < s.cfg.srcSize - s.srcBase := by
    rw [← h.remaining, State.remaining, State.srcAddr] at hk
    omega
  rw [State.srcAddr, State.srcAddr, Nat.add_assoc, Nat.add_assoc, ← h.srcPos]
  exact h.bytes _ (Nat.le_add_right _ _) hend

theorem fetch (h : SameDecode s u) : s.fetch = u.fetch := by
  rw [State.fetch, State.fetch, h.xsel, h.stream]

theorem of_appends (h : SameDecode s u) {c c' : Byte} (hc : c = c') (len : Nat) (new : List Byte) :
    SameDecode (s.appends c len new) (u.appends c' len new) :=
  { h with
    out := congrArg (· ++ new) h.out
    srcPos := congrArg (· + len) h.srcPos
    opPos := h.srcPos
    ctl := hc
    bytes := fun k hk => h.bytes k ((Nat.le_add_right _ len).trans hk) }

theorem of_raises (h : SameDecode s u) {c c' : Byte} {len len' : Nat} (hc : c = c') (hlen : len = len')
    (e : ErrCode) : SameDecode (s.raises c len e) (u.raises c' len' e) :=
  { h with
    phase := rfl
    notRender := by simp
    err := rfl
    srcPos := congrArg₂ (· + ·) h.srcPos hlen
    opPos := h.srcPos
    ctl := hc
    bytes := fun k hk => h.bytes k ((Nat.le_add_right _ len).trans hk) }

theorem of_endStream (h : SameDecode s u) :
    SameDecode { s.consume .endStream with compSize := s.srcPos, phase := .decoded }
      { u.consume .endStream with compSize := u.srcPos, phase := .decoded } :=
  { h with
    phase := rfl
    notRender := by simp
    compSize := h.srcPos
    srcPos := congrArg (· + 1) h.srcPos
    opPos := h.srcPos
    ctl := rfl
    bytes := fun k hk => h.bytes k ((Nat.le_add_right _ 1).trans hk) }

theorem of_fetchFault (h : SameDecode s u) (e : DecodeError) : SameDecode (fetchFault s e) (fetchFault u e) := by
  cases e with
  | noControlByte => exact h.of_raises (len := 0) h.ctl rfl .sourceExhausted
  | missingOperands c => exact h.of_raises (c := c) rfl h.remaining .sourceExhausted

theorem of_exec (h : SameDecode s u) (i : Instr) :
    ∃ t v, exec i s = .next t ∧ exec i u = .next v ∧ SameDecode t v := by
  by_cases hi : i = .endStream
  · exact hi ▸ ⟨_, _, rfl, rfl, h.of_endStream⟩
  · refine ⟨_, _, exec_eq_completes hi s, exec_eq_completes hi u, ?_⟩
    have hctl : controlByte s.cfg.xsel i = controlByte u.cfg.xsel i := congrArg (controlByte · i) h.xsel
    rw [h.out, verdict_congr h.outCap]
    cases verdict u.cfg u.out i with
    | ok new => exact h.of_appends hctl i.length new
    | error e => exact h.of_raises hctl rfl e

theorem of_step (h : SameDecode s u) : ∃ t v, step s = .next t ∧ step u = .next v ∧ SameDecode t v := by
  rw [step_of_empty h.inbox, step_of_empty h.inbox']
  have hu := h.notRender
  cases hp : u.phase with
  | decode =>
    rw [agentTurn_of_decode (h.phase.trans hp), agentTurn_of_decode hp]
    cases hf : u.fetch with
    | ok i =>
      rw [decStep_of_ok (h.fetch.trans hf), decStep_of_ok hf]
      exact h.of_exec i
    | error e =>
      rw [decStep_of_error (h.fetch.trans hf), decStep_of_error hf]
      exact ⟨_, _, rfl, rfl, h.of_fetchFault e⟩
  | render => exact absurd hp hu
  | idle | decoded | rendered | fault =>
    rw [agentTurn_of_neither (by simp [h.phase, hp]), agentTurn_of_neither (by simp [hp])]
    exact ⟨_, _, rfl, rfl, h⟩

theorem of_run (h : SameDecode s u) (n : Nat) :
    ∃ t v, core.run n s = .next t ∧ core.run n u = .next v ∧ SameDecode t v := by
  induction n generalizing s u with
  | zero => exact ⟨s, u, rfl, rfl, h⟩
  | succ n ih =>
    obtain ⟨s', u', hs, hu, h'⟩ := h.of_step
    obtain ⟨t, v, ht, hv, hend⟩ := ih h'
    exact ⟨t, v, (run_succ hs n).trans ht, (run_succ hu n).trans hv, hend⟩

end SameDecode

/-- Settles O58: the two machines stay in the same state of decoding the same stream, step by step. -/
theorem decodeDependsOnTheStreamOnly : Obligations.DecodeDependsOnTheStreamOnly := by
  intro s u hs hu hbox hbox' hxsel hcap hout hpos hctl hop hcomp herr hsize hbytes n
  have h : SameDecode s u :=
    { inbox := hbox, inbox' := hbox', phase := hs.trans hu.symm, notRender := by simp [hu], xsel := hxsel,
      outCap := hcap, err := herr, out := hout, srcPos := hpos, opPos := hop, ctl := hctl, compSize := hcomp,
      size := hsize, bytes := hbytes }
  obtain ⟨t, v, ht, hv, hend⟩ := h.of_run n
  exact ⟨t, v, ht, hv, hend.phase, hend.err, hend.out, hend.srcPos, hend.opPos, hend.ctl, hend.compSize⟩

end Sys2Proof.Machine
end

section
/-! SUPPORT. The spec's own DecStep (Machine/Serial.lean) against the step of DEC: its readers read what the decoder
reads from the remaining stream, its actions are the shared operations, and each opcode is the one then the other. -/

namespace Sys2Proof.Machine

variable {s s' : State} {α β : Type}

/-! ### Running a piece of pseudocode (R12) -/

theorem serial_bind_ok {p : Serial α} {f : α → Serial β} {a : α} (h : p.run s = (.ok a, s')) :
    (p >>= f).run s = (f a).run s' := by
  change (ExceptT.bindCont f (p.run s).1) (p.run s).2 = _
  rw [h]
  rfl

theorem serial_bind_error {p : Serial α} {f : α → Serial β} {e : ErrCode} (h : p.run s = (.error e, s')) :
    (p >>= f).run s = (.error e, s') := by
  change (ExceptT.bindCont f (p.run s).1) (p.run s).2 = _
  rw [h]
  rfl

theorem serial_get_bind (f : State → Serial α) (s : State) : ((get : Serial State) >>= f).run s = (f s).run s := rfl

theorem serial_modify_bind (g : State → State) (f : PUnit → Serial α) (s : State) :
    ((modify g : Serial PUnit) >>= f).run s = (f ()).run (g s) := rfl

theorem outAppend_bind (v : Byte) (f : Unit → Serial α) (s : State) :
    (outAppend v >>= f).run s = (f ()).run { s with out := s.out ++ [v] } := rfl

/-! ### Actions that read no stream (R134, R150, R161) -/

/-- The state a piece of pseudocode ends in, its fault entry included (R228). -/
def settle (start : State) : Except ErrCode Unit × State → State
  | (.ok _, s) => s
  | (.error e, s) => faultEntry start e s

theorem runSerialDecStep_eq (s : State) : runSerialDecStep s = settle s (serialDecStep.run s) := rfl

theorem outAppendAll_run (new : List Byte) (s : State) :
    (outAppendAll new).run s = (.ok (), { s with out := s.out ++ new }) := by
  induction new generalizing s with
  | nil =>
    rw [List.append_nil]
    rfl
  | cons v new ih => rw [outAppendAll, outAppend_bind, ih, List.append_assoc, List.singleton_append]

theorem settle_serialCommit (start t : State) (new : List Byte) :
    settle start ((serialCommit new).run t) = commit start t new := by
  rw [serialCommit, serial_get_bind]
  by_cases h : capAllows t.cfg (t.out.length + new.length) = true
  · rw [if_neg (by simp [h]), outAppendAll_run, commit, if_pos h]
    rfl
  · rw [if_pos (by simp [h]), commit, if_neg h]
    rfl

theorem settle_serialAbsCopy (start t : State) (n : Nat) (o : Half) (f : Byte → Byte) :
    settle start ((serialAbsCopy n o.toNat f).run t) = absCopy start t n o f := by
  rw [serialAbsCopy, serial_get_bind]
  obtain ⟨hout, heq⟩ | ⟨hin, -, heq⟩ := absCopy_cases start t n o f <;> rw [heq]
  · rw [if_pos hout]
    rfl
  · rw [if_neg (Nat.not_lt_of_le hin), settle_serialCommit]

/-- Where the loop of the model finds every byte, the loop of the spec appends the same (R161). -/
theorem serialRelLoop_run {n a : Nat} {out : List Byte} (h : relLoop n a s.out = some out) :
    (serialRelLoop a n).run s = (.ok (), { s with out := out }) := by
  induction n generalizing a s with
  | zero =>
    cases h
    rfl
  | succ n ih =>
    rw [relLoop] at h
    split at h
    · rename_i v hv
      have hread : (outRead8 a).run s = (.ok v, s) := by
        rw [outRead8, serial_get_bind, hv]
        rfl
      rw [serialRelLoop, serial_bind_ok hread, outAppend_bind, ih h]
    · cases h

theorem settle_serialRelCopy (start t : State) (n : Nat) (b : Byte) :
    settle start ((serialRelCopy n b).run t) = relCopy start t n b := by
  have hzero : b = 0#8 ↔ b.toNat = 0 := BitVec.toNat_inj.symm
  rw [serialRelCopy, serial_get_bind]
  obtain ⟨hout, heq⟩ | ⟨h0, hin, hfull, heq⟩ | ⟨h0, hin, hfit, new, -, hloop, heq⟩ := relCopy_cases start t n b <;>
    rw [heq]
  · rw [if_pos (by rwa [hzero] at hout)]
    rfl
  · rw [if_neg (by simp [← hzero, h0, hin]), if_pos (by simpa [fits_iff] using hfull)]
    rfl
  · rw [if_neg (by simp [← hzero, h0, hin]), if_neg (by simpa [fits_iff] using hfit), serialRelLoop_run hloop]
    rfl

/-! ### The readers (R10) -/

/-- The state after `n` stream bytes have been read. -/
def State.skip (s : State) (n : Nat) : State := { s with srcPos := s.srcPos + n }

/-- The remaining stream, as far as `m` bytes reach. -/
def State.window (s : State) (m : Nat) : List Byte := s.srcBytes s.srcAddr (min m s.remaining)

theorem skip_skip (s : State) (m n : Nat) : (s.skip m).skip n = s.skip (m + n) := by
  simp only [State.skip, Nat.add_assoc]

theorem srcRead8_ok (h : s.srcAddr < s.cfg.srcSize) :
    srcRead8.run s = (.ok (s.srcByte s.srcAddr), s.skip 1) := by
  rw [State.srcAddr] at h
  rw [srcRead8, serial_get_bind, if_neg (Nat.not_le_of_lt h)]
  rfl

theorem srcRead8_exhausted (h : s.cfg.srcSize ≤ s.srcAddr) : srcRead8.run s = (.error .sourceExhausted, s) := by
  rw [State.srcAddr] at h
  rw [srcRead8, serial_get_bind, if_pos h]
  rfl

/-- What SrcRead8 does: it reads the first byte of the stream, or raises where there is none. -/
theorem srcRead8_cases (s : State) (m : Nat) :
    (∃ v, s.window (m + 1) = v :: (s.skip 1).window m ∧
      (s.skip 1).skip (s.skip 1).remaining = s.skip s.remaining ∧ srcRead8.run s = (.ok v, s.skip 1)) ∨
    (s.window (m + 1) = [] ∧ srcRead8.run s = (.error .sourceExhausted, s.skip s.remaining)) := by
  obtain hlt | hend := Nat.lt_or_ge s.srcAddr s.cfg.srcSize
  · have hrem : s.remaining = 1 + (s.skip 1).remaining := by
      simp only [State.remaining, State.srcAddr, State.skip] at hlt ⊢
      omega
    refine .inl ⟨s.srcByte s.srcAddr, ?_, by rw [skip_skip, hrem], srcRead8_ok hlt⟩
    rw [State.window, hrem, Nat.add_comm 1, Nat.add_min_add_right, srcBytes_succ]
    rfl
  · have hrem : s.remaining = 0 := Nat.sub_eq_zero_of_le hend
    exact .inr ⟨by simp [State.window, hrem], by rw [srcRead8_exhausted hend, hrem]; rfl⟩

theorem takeBytes_succ_cons (n : Nat) (v : Byte) (bs : List Byte) :
    takeBytes (n + 1) (v :: bs) = (takeBytes n bs).map (v :: ·) := by
  unfold takeBytes
  split <;> simp_all

/-- The loop of `n` reads takes `n` bytes of the stream, or reads all there are and raises. -/
theorem srcReadMany_cases {n m : Nat} (hn : n ≤ m) (s : State) :
    (∃ d, takeBytes n (s.window m) = some d ∧ (srcReadMany n).run s = (.ok d, s.skip n)) ∨
    (takeBytes n (s.window m) = none ∧
      (srcReadMany n).run s = (.error .sourceExhausted, s.skip s.remaining)) := by
  induction n generalizing s m with
  | zero => exact .inl ⟨[], rfl, rfl⟩
  | succ n ih =>
    obtain ⟨m, rfl⟩ := Nat.exists_eq_add_of_le' hn
    rw [← Nat.add_assoc]
    obtain ⟨v, hw, hend, hr⟩ | ⟨hw, hr⟩ := srcRead8_cases s (m + n)
    · rw [hw, takeBytes_succ_cons, srcReadMany, serial_bind_ok hr]
      obtain ⟨d, hd, hr⟩ | ⟨hd, hr⟩ := ih (Nat.le_add_left n m) (s.skip 1)
      · exact .inl ⟨v :: d, by rw [hd]; rfl, by rw [serial_bind_ok hr, skip_skip, Nat.add_comm 1]; rfl⟩
      · exact .inr ⟨by rw [hd]; rfl, by rw [serial_bind_error hr, hend]⟩
    · exact .inr ⟨by rw [hw]; rfl, serial_bind_error hr⟩

theorem srcRead2_cases (s : State) (m : Nat) :
    (∃ p : Byte × Byte, s.window (m + 2) = p.1 :: p.2 :: (s.skip 2).window m ∧
      srcRead2.run s = (.ok p, s.skip 2)) ∨
    ((s.window (m + 2) = [] ∨ ∃ v, s.window (m + 2) = [v]) ∧
      srcRead2.run s = (.error .sourceExhausted, s.skip s.remaining)) := by
  obtain ⟨v, hv, hend, hr⟩ | ⟨hw, hr⟩ := srcRead8_cases s (m + 1)
  · obtain ⟨w, hw, -, hr'⟩ | ⟨hw, hr'⟩ := srcRead8_cases (s.skip 1) m
    · refine .inl ⟨(v, w), ?_, ?_⟩
      · rw [hv, hw, skip_skip]
      · rw [srcRead2, serial_bind_ok hr, serial_bind_ok hr', skip_skip]
        rfl
    · refine .inr ⟨.inr ⟨v, by rw [hv, hw]⟩, ?_⟩
      rw [srcRead2, serial_bind_ok hr, serial_bind_error hr', hend]
  · exact .inr ⟨.inl hw, serial_bind_error hr⟩

theorem xCount_cases (ctl : Byte) (s : State) (m : Nat) :
    (∃ k, s.window (m + 1) = k :: (s.skip 1).window m ∧
      (s.skip 1).skip (s.skip 1).remaining = s.skip s.remaining ∧
      (xCount ctl).run s = (.ok (extCount ctl k), s.skip 1)) ∨
    (s.window (m + 1) = [] ∧ (xCount ctl).run s = (.error .sourceExhausted, s.skip s.remaining)) := by
  obtain ⟨k, hw, hend, hr⟩ | ⟨hw, hr⟩ := srcRead8_cases s m
  · exact .inl ⟨k, hw, hend, serial_bind_ok hr⟩
  · exact .inr ⟨hw, serial_bind_error hr⟩

/-! ### An opcode is its operands, then its meaning (R120) -/

/-- The operand fetches of a form, in the order of its rule. -/
def serialOperands (ctl : Byte) : Form → Serial Instr
  | .lit => do return .lit (← srcReadMany (shortCount ctl))
  | .fill => do return .fill (shortCount ctl) (← srcRead8)
  | .pair => do
    let p ← srcRead2
    return .pair (shortCount ctl) p.1 p.2
  | .ramp => do return .ramp (shortCount ctl) (← srcRead8)
  | .acpy => do
    let p ← srcRead2
    return .acpy (shortCount ctl) (offsetLE p.1 p.2)
  | .ainv => do
    let p ← srcRead2
    return .ainv (shortCount ctl) (offsetLE p.1 p.2)
  | .rcpy => do return .rcpy (shortCount ctl) (← srcRead8)
  | .xlit => do
    let n ← xCount ctl
    return .xlit (← srcReadMany n)
  | .xfill => do
    let n ← xCount ctl
    return .xfill n (← srcRead8)
  | .xpair => do
    let n ← xCount ctl
    let p ← srcRead2
    return .xpair n p.1 p.2
  | .xrcpy => do
    let n ← xCount ctl
    return .xrcpy n (← srcRead8)
  | .xrsv => return .xrsv ctl
  | .endStream => return .endStream

/-- What an opcode does once its operands have been read. -/
def serialMeaning : Instr → Serial Unit
  | .lit d => serialCommit d
  | .fill n v => serialCommit (fillRun n v)
  | .pair n p0 p1 => serialCommit (pairRun n p0 p1)
  | .ramp n v => serialCommit (rampRun n v)
  | .acpy n o => serialAbsCopy n o.toNat fun v => v
  | .ainv n o => serialAbsCopy n o.toNat fun v => v ^^^ 0xFF#8
  | .rcpy n b => serialRelCopy n b
  | .xlit d => serialCommit d
  | .xfill n v => serialCommit (fillRun n v)
  | .xpair n p0 p1 => serialCommit (pairRun n p0 p1)
  | .xrcpy n b => serialRelCopy n b
  | .xrsv _ => throw ErrCode.malformedOpcode
  | .endStream => modify fun s => { s with compSize := s.opPos, phase := .decoded }

/-- The pseudocode of every opcode is its operand fetches followed by its meaning. -/
theorem serialOpcode_eq (ctl : Byte) (f : Form) : serialOpcode ctl f = serialOperands ctl f >>= serialMeaning := by
  cases f with
  | acpy | ainv => simp [serialOpcode, serialOperands, serialMeaning, srcRead16LE, srcRead2, toNat_offsetLE]
  | fill | pair | ramp | xfill | xpair =>
    simp [serialOpcode, serialOperands, serialMeaning, fillRun, pairRun, rampRun]
  | lit | rcpy | xlit | xrcpy | xrsv | endStream => simp [serialOpcode, serialOperands, serialMeaning]

/-- The operand fetches read what the decoder reads from the stream, or all there is where that falls short. -/
theorem serialOperands_cases (ctl : Byte) (f : Form) (s : State) :
    (∃ i, readOperands ctl (s.window 1025) f = some i ∧
      (serialOperands ctl f).run s = (.ok i, s.skip (i.length - 1))) ∨
    (readOperands ctl (s.window 1025) f = none ∧
      (serialOperands ctl f).run s = (.error .sourceExhausted, s.skip s.remaining)) := by
  cases f with
  | lit =>
    have hn : shortCount ctl ≤ 1025 := (shortCount_le ctl).trans (by decide)
    obtain ⟨d, hd, hr⟩ | ⟨hd, hr⟩ := srcReadMany_cases hn s
    · obtain ⟨hlen, -⟩ := eq_append_of_takeBytes hd
      refine .inl ⟨.lit d, by rw [readOperands, hd]; rfl, ?_⟩
      rw [serialOperands, serial_bind_ok hr, Instr.length, Nat.add_sub_cancel_left, hlen]
      rfl
    · exact .inr ⟨by rw [readOperands, hd]; rfl, serial_bind_error hr⟩
  | fill | ramp | rcpy =>
    obtain ⟨v, hw, -, hr⟩ | ⟨hw, hr⟩ := srcRead8_cases s 1024
    · exact .inl ⟨_, by rw [hw]; rfl, serial_bind_ok hr⟩
    · exact .inr ⟨by rw [hw]; rfl, serial_bind_error hr⟩
  | pair | acpy | ainv =>
    obtain ⟨p, hw, hr⟩ | ⟨hw | ⟨v, hw⟩, hr⟩ := srcRead2_cases s 1023
    · exact .inl ⟨_, by rw [hw]; rfl, serial_bind_ok hr⟩
    · exact .inr ⟨by rw [hw]; rfl, serial_bind_error hr⟩
    · exact .inr ⟨by rw [hw]; rfl, serial_bind_error hr⟩
  | xlit =>
    obtain ⟨k, hw, hend, hr⟩ | ⟨hw, hr⟩ := xCount_cases ctl s 1024
    · rw [hw, readOperands, serialOperands, serial_bind_ok hr]
      obtain ⟨d, hd, hr⟩ | ⟨hd, hr⟩ := srcReadMany_cases (extCount_le ctl k) (s.skip 1)
      · obtain ⟨hlen, -⟩ := eq_append_of_takeBytes hd
        refine .inl ⟨.xlit d, by rw [hd]; rfl, ?_⟩
        rw [serial_bind_ok hr, skip_skip, Instr.length, hlen, Nat.add_comm 1, Nat.add_comm 2]
        rfl
      · exact .inr ⟨by rw [hd]; rfl, by rw [serial_bind_error hr, hend]⟩
    · exact .inr ⟨by rw [hw]; rfl, serial_bind_error hr⟩
  | xfill | xrcpy =>
    obtain ⟨k, hw, hend, hr⟩ | ⟨hw, hr⟩ := xCount_cases ctl s 1024
    · rw [hw, serialOperands, serial_bind_ok hr]
      obtain ⟨v, hw, -, hr⟩ | ⟨hw, hr⟩ := srcRead8_cases (s.skip 1) 1023
      · exact .inl ⟨_, by rw [hw]; rfl, by rw [serial_bind_ok hr, skip_skip]; rfl⟩
      · exact .inr ⟨by rw [hw]; rfl, by rw [serial_bind_error hr, hend]⟩
    · exact .inr ⟨by rw [hw]; rfl, serial_bind_error hr⟩
  | xpair =>
    obtain ⟨k, hw, hend, hr⟩ | ⟨hw, hr⟩ := xCount_cases ctl s 1024
    · rw [hw, serialOperands, serial_bind_ok hr]
      obtain ⟨p, hw, hr⟩ | ⟨hw | ⟨v, hw⟩, hr⟩ := srcRead2_cases (s.skip 1) 1022
      · exact .inl ⟨_, by rw [hw]; rfl, by rw [serial_bind_ok hr, skip_skip]; rfl⟩
      · exact .inr ⟨by rw [hw]; rfl, by rw [serial_bind_error hr, hend]⟩
      · exact .inr ⟨by rw [hw]; rfl, by rw [serial_bind_error hr, hend]⟩
    · exact .inr ⟨by rw [hw]; rfl, serial_bind_error hr⟩
  | xrsv | endStream => exact .inl ⟨_, rfl, rfl⟩

/-- The meaning of an instruction is its pseudocode on the state after its bytes have been read. -/
theorem exec_eq_settle (i : Instr) (s : State) :
    exec i s = .next (settle s ((serialMeaning i).run (s.consume i))) := by
  cases i with
  | lit | fill | pair | ramp | xlit | xfill | xpair => rw [serialMeaning, settle_serialCommit]; rfl
  | acpy | ainv => rw [serialMeaning, settle_serialAbsCopy]; rfl
  | rcpy | xrcpy => rw [serialMeaning, settle_serialRelCopy]; rfl
  | xrsv | endStream => rfl

/-! ### The step of DEC -/

/-- The state after the control fetch (R120). -/
def State.latched (s : State) : State :=
  { s with opPos := s.srcPos, ctl := s.srcByte s.srcAddr, srcPos := s.srcPos + 1 }

/-- After the operands of a decoded instruction, its latches are those of `State.consume` (R120, R124). -/
theorem latched_skip {i : Instr} (hc : s.srcByte s.srcAddr = controlByte s.cfg.xsel i) :
    s.latched.skip (i.length - 1) = s.consume i := by
  have hpos : s.srcPos + 1 + (i.length - 1) = s.srcPos + i.length := by
    have := i.length_pos
    omega
  simp only [State.skip, State.latched, State.consume, hpos, hc]

theorem serialDecStep_run (h : s.srcAddr < s.cfg.srcSize) : serialDecStep.run s =
    (serialOpcode (s.srcByte s.srcAddr) (formOf s.cfg.xsel (s.srcByte s.srcAddr))).run s.latched := by
  rw [serialDecStep, serial_modify_bind, serial_bind_ok (srcRead8_ok (s := { s with opPos := s.srcPos }) h)]
  rfl

theorem serialDecStep_run_exhausted (h : s.cfg.srcSize ≤ s.srcAddr) :
    serialDecStep.run s = (.error .sourceExhausted, { s with opPos := s.srcPos }) := by
  rw [serialDecStep, serial_modify_bind, serial_bind_error (srcRead8_exhausted (s := { s with opPos := s.srcPos }) h)]

theorem decStep_eq_serial (s : State) : decStep s = .next (runSerialDecStep s) := by
  rw [runSerialDecStep_eq]
  obtain hlt | hend := Nat.lt_or_ge s.srcAddr s.cfg.srcSize
  · have hs : s.stream = s.srcByte s.srcAddr :: s.latched.window 1025 := stream_cons hlt
    rw [serialDecStep_run hlt, serialOpcode_eq]
    obtain ⟨i, hi, hr⟩ | ⟨hi, hr⟩ :=
      serialOperands_cases (s.srcByte s.srcAddr) (formOf s.cfg.xsel (s.srcByte s.srcAddr)) s.latched
    · have hf : s.fetch = .ok i := by rw [State.fetch, hs, decode_cons_eq_ok, hi]
      obtain ⟨-, rest, hbytes⟩ := readOperands_sound (selects_formOf _ _) hi
      rw [decStep_of_ok hf, exec_eq_settle, serial_bind_ok hr, latched_skip (List.cons.inj hbytes).1]
    · have hf : s.fetch = .error (.missingOperands (s.srcByte s.srcAddr)) := by
        rw [State.fetch, hs, decode_cons, hi]
      have hpos : s.srcPos + s.remaining = s.srcPos + 1 + s.latched.remaining := by
        simp only [State.remaining, State.srcAddr, State.latched] at hlt ⊢
        omega
      rw [decStep_of_error hf, serial_bind_error hr, fetchFault, hpos]
      rfl
  · rw [decStep_of_error (fetch_of_exhausted hend), serialDecStep_run_exhausted hend]
    rfl

/-- Settles O8: in DECODE the two steps agree, and in every other phase the turn is REN's or nothing. -/
theorem serialDecodeStepAgrees : Obligations.SerialDecodeStepAgrees := by
  refine ⟨fun s hp hbox => (step_of_decode hp hbox).trans (decStep_eq_serial s), fun s t hp hbox h => ?_⟩
  rw [step_of_empty hbox] at h
  obtain ⟨hdec, -⟩ | ⟨-, h⟩ | ⟨-, -, rfl⟩ := agentTurn_cases h
  · exact absurd hdec hp
  · obtain ⟨-, rfl⟩ | ⟨-, -, u, -, rfl⟩ := renStep_cases h <;> exact ⟨rfl, rfl, rfl, rfl, rfl⟩
  · exact ⟨rfl, rfl, rfl, rfl, rfl⟩

end Sys2Proof.Machine
end

section
/-! SUPPORT. Families 0 to 3 (41_literal_and_fill): what an opcode appends where its run fits, and the step at a control
byte, which runs the opcode where the stream holds its operand bytes and exhausts the stream where it does not. -/

namespace Sys2Proof

/-! ### How many operand bytes a form reads (R96) -/

/-- The number of operand bytes of a form with control byte `c`, where `k` is the first of them. -/
def Form.operandCount (c k : Byte) : Form → Nat
  | .lit => shortCount c
  | .fill => 1
  | .pair => 2
  | .ramp => 1
  | .acpy => 2
  | .ainv => 2
  | .rcpy => 1
  | .xlit => 1 + extCount c k
  | .xfill => 2
  | .xpair => 3
  | .xrcpy => 2
  | .xrsv => 0
  | .endStream => 0

theorem Form.operandCount_le (c k : Byte) (f : Form) : f.operandCount c k ≤ 1025 := by
  have hshort := shortCount_le c
  have hext := extCount_le c k
  cases f <;> simp only [Form.operandCount] <;> omega

/-- The decoder misses an operand exactly where fewer bytes are left than the form reads (`k` stands for the first where
none is left). -/
theorem readOperands_eq_none_iff {c : Byte} {bs : List Byte} {f : Form} (k : Byte) :
    readOperands c bs f = none ↔ bs.length < f.operandCount c (bs.headD k) := by
  cases f with
  | lit => rw [readOperands, Option.map_eq_none_iff, takeBytes_eq_none, Form.operandCount]
  | xlit =>
    cases bs with
    | nil => simp [readOperands, Form.operandCount]
    | cons k ds =>
      rw [readOperands, Option.map_eq_none_iff, takeBytes_eq_none, Form.operandCount, List.length_cons,
        List.headD_cons, Nat.add_comm, Nat.add_lt_add_iff_left]
  | fill | ramp | rcpy => cases bs <;> simp [readOperands, Form.operandCount]
  | pair | acpy | ainv | xfill | xrcpy =>
    obtain _ | ⟨b0, _ | ⟨b1, bs⟩⟩ := bs <;> simp [readOperands, Form.operandCount]
  | xpair => obtain _ | ⟨b0, _ | ⟨b1, _ | ⟨b2, bs⟩⟩⟩ := bs <;> simp [readOperands, Form.operandCount]
  | xrsv | endStream => simp [readOperands, Form.operandCount]

/-- LIT reads as many literal bytes as its control byte counts (R135). -/
theorem readOperands_lit {c : Byte} {d : List Byte} (hd : d.length = shortCount c) (rest : List Byte) :
    readOperands c (d ++ rest) .lit = some (.lit d) := by
  rw [readOperands, ← hd, takeBytes_append]
  rfl

theorem shortControl_zero (n : Nat) : shortControl 0 n = BitVec.ofNat 8 (n - 1) := by
  rw [shortControl, Nat.mul_zero, Nat.zero_add]

end Sys2Proof

namespace Sys2Proof.Machine

variable {s : State}

/-! ### The step at a control byte (R120, R221) -/

/-- The operand bytes the decoder sees: the stream after the control byte. -/
def State.operandWindow (s : State) : List Byte := (s.skip 1).window 1025

theorem length_operandWindow_lt {n : Nat} (hn : n ≤ 1025) (hin : s.Has 1) :
    s.operandWindow.length < n ↔ ¬ s.Has (1 + n) := by
  rw [State.operandWindow, State.window, length_srcBytes]
  simp only [State.Has, State.remaining, State.srcAddr, State.skip] at hin ⊢
  omega

/-- Where the stream holds `n` operand bytes, they are what the decoder sees first. -/
theorem operandWindow_of_has {n : Nat} (hn : n ≤ 1025) (hhas : s.Has (1 + n)) :
    ∃ rest, s.operandWindow = (List.range n).map s.operand ++ rest := by
  have hwindow : min 1025 (s.skip 1).remaining = n + (min 1025 (s.skip 1).remaining - n) := by
    simp only [State.Has, State.remaining, State.srcAddr, State.skip] at hhas ⊢
    omega
  have hbytes : (s.skip 1).srcBytes (s.skip 1).srcAddr n = (List.range n).map s.operand := by
    rw [State.srcBytes, List.range'_eq_map_range, List.map_map]
    rfl
  exact ⟨_, by rw [State.operandWindow, State.window, hwindow, srcBytes_add, hbytes]⟩

theorem headD_operandWindow (s : State) : s.operandWindow.headD (s.operand 0) = s.operand 0 := by
  rw [State.operandWindow, State.window]
  cases min 1025 (s.skip 1).remaining with
  | zero => rfl
  | succ m => rw [srcBytes_succ]; rfl

theorem stream_atControl {c : Byte} (h : s.AtControl c) : s.stream = c :: s.operandWindow := by
  obtain ⟨-, -, hlt, hc⟩ := h
  exact hc ▸ stream_cons hlt

theorem fetch_atControl {c : Byte} {f : Form} {i : Instr} (h : s.AtControl c) (hf : f.Selects s.cfg.xsel c)
    (hi : readOperands c s.operandWindow f = some i) : s.fetch = .ok i := by
  rw [State.fetch, stream_atControl h, decode_cons_eq_ok, formOf_of_selects hf, hi]

theorem fetch_missingOperands {c : Byte} {f : Form} (h : s.AtControl c) (hf : f.Selects s.cfg.xsel c)
    (hnone : readOperands c s.operandWindow f = none) : s.fetch = .error (.missingOperands c) := by
  rw [State.fetch, stream_atControl h, decode_cons, formOf_of_selects hf, hnone]

/-- A step at a control byte of form `f`, which reads `n` operand bytes, runs the opcode they give where the stream
holds them all, and otherwise consumes every byte that is there. -/
theorem step_atControl {c : Byte} {f : Form} {i : Instr} {n : Nat} (h : s.AtControl c) (hf : f.Selects s.cfg.xsel c)
    (hn : f.operandCount c (s.operand 0) = n)
    (hi : ∀ rest, readOperands c ((List.range n).map s.operand ++ rest) f = some i) :
    (s.Has (1 + n) → step s = exec i s) ∧ (¬ s.Has (1 + n) → step s = .next (s.exhausts c)) := by
  have ⟨hp, hbox, hin, _⟩ := h
  have hle : n ≤ 1025 := hn ▸ f.operandCount_le c (s.operand 0)
  rw [step_of_decode hp hbox]
  refine ⟨fun hhas => ?_, fun hshort => ?_⟩
  · obtain ⟨rest, hw⟩ := operandWindow_of_has hle hhas
    exact decStep_of_ok (fetch_atControl h hf (hw ▸ hi rest))
  · have hnone : readOperands c s.operandWindow f = none := by
      rw [readOperands_eq_none_iff (s.operand 0), headD_operandWindow, hn]
      exact (length_operandWindow_lt hle hin).mpr hshort
    rw [decStep_of_error (fetch_missingOperands h hf hnone)]
    rfl

/-! ### The effect of an opcode that is not END (R134, R176) -/

/-- Commit (R134): an opcode in range appends its run of `n` bytes where it fits, and otherwise overflows. -/
theorem exec_commits {i : Instr} {new : List Byte} {n : Nat} (hnew : produced s.out i = some new)
    (hlen : new.length = n) :
    (s.Fits n → exec i s = .next (s.appends (controlByte s.cfg.xsel i) i.length new)) ∧
    (¬ s.Fits n → exec i s = .next (s.raises (controlByte s.cfg.xsel i) i.length .outputOverflow)) := by
  subst hlen
  refine ⟨fun hfit => exec_of_produced hnew ((fits_iff _ _).mp hfit), fun hfull => ?_⟩
  have hi : i ≠ .endStream := by
    rintro rfl
    cases hnew
  have hcap : ¬ capAllows s.cfg (s.out.length + new.length) = true := mt (fits_iff _ _).mpr hfull
  simp only [exec_eq_completes hi, verdict, hnew, fitted, if_neg hcap, State.completes]

/-- An opcode other than END that produces nothing is reserved or out of range, and raises. -/
theorem exec_of_not_produced {i : Instr} (hi : i ≠ .endStream) (hnone : produced s.out i = none) :
    exec i s = .next (s.raises (controlByte s.cfg.xsel i) i.length
      (if i.form = .xrsv then .malformedOpcode else .outOfRangeReference)) := by
  simp only [exec_eq_completes hi, verdict, hnone, State.completes]

/-- Settles O30: the verdict on the opcode commits what is produced, or raises where nothing is. -/
theorem meaningAppendsWhatIsProduced : Obligations.MeaningAppendsWhatIsProduced := by
  refine fun i s hi => ⟨fun new hnew => (exec_commits hnew rfl).1, fun new hnew => (exec_commits hnew rfl).2,
    fun hnone => ⟨_, ?_, exec_of_not_produced hi hnone⟩⟩
  split
  · exact .inl rfl
  · exact .inr rfl

/-! ### The generated runs (R137, R138) -/

@[simp] theorem length_pairRun (n : Nat) (p0 p1 : Byte) : (pairRun n p0 p1).length = n := by
  simp [pairRun]

@[simp] theorem length_rampRun (n : Nat) (v : Byte) : (rampRun n v).length = n := by
  simp [rampRun]

theorem getElem?_pairRun {n k : Nat} (hk : k < n) (p0 p1 : Byte) :
    (pairRun n p0 p1)[k]? = some (if k % 2 = 0 then p0 else p1) := by
  simp [pairRun, hk]

theorem getElem?_rampRun {n k : Nat} (hk : k < n) (v : Byte) :
    (rampRun n v)[k]? = some (BitVec.ofNat 8 (v.toNat + k)) := by
  simp [rampRun, hk]

/-! ### The four opcodes -/

/-- Settles O11: LIT commits the bytes it carries, and reads as many as its control byte counts. -/
theorem litAppendsItsBytes : Obligations.LitAppendsItsBytes := by
  refine ⟨fun s d _ _ => ?_, fun s c h hf => ?_⟩
  · rw [← shortControl_zero]
    exact exec_commits (i := .lit d) rfl rfl
  · rw [← shortCount_eq]
    exact step_atControl (f := .lit) h hf rfl (readOperands_lit (by simp))

/-- Settles O12: FILL commits copies of its one operand byte. -/
theorem fillRepeatsItsByte : Obligations.FillRepeatsItsByte := by
  refine ⟨fun s n v _ _ => exec_commits (i := .fill n v) rfl List.length_replicate, fun s c h hf => ?_⟩
  rw [← shortCount_eq]
  exact step_atControl (f := .fill) h hf rfl fun _ => rfl

/-- Settles O13: PAIR commits its pair run, whose bytes depend on the index within the run alone. -/
theorem pairAlternatesWithinTheRun : Obligations.PairAlternatesWithinTheRun := by
  refine ⟨fun s n p0 p1 _ _ => ?_, fun s c h hf => ?_⟩
  · obtain ⟨hfit, hfull⟩ := exec_commits (s := s) (i := .pair n p0 p1) rfl (length_pairRun n p0 p1)
    exact ⟨fun h => ⟨_, length_pairRun n p0 p1, fun k hk => getElem?_pairRun hk p0 p1, hfit h⟩, hfull⟩
  · rw [← shortCount_eq]
    exact step_atControl (f := .pair) h hf rfl fun _ => rfl

/-- Settles O14: RAMP commits its ramp, each byte of which is cut to 8 bits. -/
theorem rampCountsUpModulo256 : Obligations.RampCountsUpModulo256 := by
  refine ⟨fun s n v _ _ => ?_, fun s c h hf => ?_⟩
  · obtain ⟨hfit, hfull⟩ := exec_commits (s := s) (i := .ramp n v) rfl (length_rampRun n v)
    have hbytes : ∀ k, k < n → ((rampRun n v)[k]?).map BitVec.toNat = some ((v.toNat + k) % 256) := fun k hk => by
      rw [getElem?_rampRun hk, Option.map_some, BitVec.toNat_ofNat]
    exact ⟨fun h => ⟨_, length_rampRun n v, hbytes, hfit h⟩, hfull⟩
  · rw [← shortCount_eq]
    exact step_atControl (f := .ramp) h hf rfl fun _ => rfl

end Sys2Proof.Machine
end

section
/-! SUPPORT. Families 4 and 5 (42_absolute_copy): the run of an absolute copy is a slice of OUT, checked whole before
anything is appended, so that what a byte-by-byte copy would read is never a byte it has appended. -/

namespace Sys2Proof.Machine

variable {out new : List Byte} {n o k : Nat}

/-! ### The run of an absolute copy (R150, R151) -/

/-- The slice `OUT[o .. o+n)`, each byte passed through `f`: the run of ACPY and of AINV. -/
def absRun (out : List Byte) (n o : Nat) (f : Byte → Byte) : List Byte := ((out.drop o).take n).map f

theorem produced_acpy {o : Half} (hin : o.toNat + n ≤ out.length) :
    produced out (.acpy n o) = some (absRun out n o.toNat fun v => v) := by
  rw [produced, if_pos hin, absRun, List.map_id']

theorem produced_ainv {o : Half} (hin : o.toNat + n ≤ out.length) :
    produced out (.ainv n o) = some (absRun out n o.toNat fun v => v ^^^ 0xFF#8) :=
  if_pos hin

theorem length_absRun (hin : o + n ≤ out.length) (f : Byte → Byte) : (absRun out n o f).length = n := by
  rw [absRun, List.length_map, List.length_take, List.length_drop]
  omega

theorem getElem?_absRun (hk : k < n) (f : Byte → Byte) : (absRun out n o f)[k]? = (out[o + k]?).map f := by
  rw [absRun, List.getElem?_map, List.getElem?_take_of_lt hk, List.getElem?_drop]

theorem toNat_complement (v : Byte) : (v ^^^ 0xFF#8).toNat = 255 - v.toNat := by
  change (v ^^^ BitVec.allOnes 8).toNat = _
  rw [BitVec.xor_allOnes, BitVec.toNat_not]

/-! ### The two opcodes (R152) -/

/-- Settles O15: ACPY commits its slice of OUT, whose offset is the operand pair, low byte first. -/
theorem acpyCopiesTheSlice : Obligations.AcpyCopiesTheSlice := by
  refine ⟨fun s n o _ _ => ?_, fun s c h hf => ?_⟩
  · have hcommit (hin : o.toNat + n ≤ s.out.length) :=
      exec_commits (s := s) (produced_acpy hin) (length_absRun hin _)
    refine ⟨fun hout => exec_of_not_produced (i := .acpy n o) nofun (if_neg (Nat.not_le_of_lt hout)),
      fun hin => (hcommit hin).2, fun hin hfit => ⟨_, length_absRun hin _, fun k hk => ?_, (hcommit hin).1 hfit⟩⟩
    rw [getElem?_absRun hk, Option.map_id']
  · rw [← shortCount_eq]
    obtain ⟨hrun, hshort⟩ := step_atControl (f := .acpy) h hf rfl fun _ => rfl
    exact ⟨fun hhas => ⟨_, toNat_offsetLE _ _, hrun hhas⟩, hshort⟩

/-- Settles O16: AINV commits the same slice with each byte complemented. -/
theorem ainvCopiesTheComplement : Obligations.AinvCopiesTheComplement := by
  refine ⟨fun s n o _ _ => ?_, fun s c h hf => ?_⟩
  · have hcommit (hin : o.toNat + n ≤ s.out.length) :=
      exec_commits (s := s) (produced_ainv hin) (length_absRun hin _)
    refine ⟨fun hout => exec_of_not_produced (i := .ainv n o) nofun (if_neg (Nat.not_le_of_lt hout)),
      fun hin => (hcommit hin).2, fun hin hfit => ⟨_, length_absRun hin _, fun k hk => ?_, (hcommit hin).1 hfit⟩⟩
    rw [getElem?_absRun hk, Option.map_map]
    exact congrArg (Option.map · _) (funext toNat_complement)
  · rw [← shortCount_eq]
    obtain ⟨hrun, hshort⟩ := step_atControl (f := .ainv) h hf rfl fun _ => rfl
    exact ⟨fun hhas => ⟨_, toNat_offsetLE _ _, hrun hhas⟩, hshort⟩

/-! ### Source and destination never overlap (R153) -/

/-- The k-th source byte of a slice in range lies below the run, so it is there however far OUT has grown. -/
theorem getElem?_take_append_source (hin : o + n ≤ out.length) (hk : k < n) :
    ((out ++ new).take (out.length + k))[o + k]? = out[o + k]? := by
  have hsource : o + k < out.length := by omega
  rw [List.getElem?_take_of_lt (Nat.lt_add_right k hsource), List.getElem?_append_left hsource]

/-- Byte `k` of the run is its source byte as OUT has it after the first `k` have been appended. -/
theorem getElem?_append_absRun (hin : o + n ≤ out.length) (hk : k < n) (f : Byte → Byte) :
    (out ++ absRun out n o f)[out.length + k]? =
      (((out ++ absRun out n o f).take (out.length + k))[o + k]?).map f := by
  rw [getElem?_take_append_source hin hk, List.getElem?_append_right (Nat.le_add_right _ _), Nat.add_sub_cancel_left,
    getElem?_absRun hk]

/-- Settles O27: both opcodes append their run, each byte of which has its source below the run. -/
theorem absoluteCopyNeverOverlaps : Obligations.AbsoluteCopyNeverOverlaps := by
  refine fun s t n o hin hfit => ⟨fun h k hk => ?_, fun h k hk => ?_⟩
  · obtain rfl := Host.Outcome.next.inj
      (((exec_commits (produced_acpy hin) (length_absRun hin _)).1 hfit).symm.trans h)
    refine ⟨(getElem?_append_absRun hin hk _).trans Option.map_id', ?_⟩
    have hlt : s.out.length + k < (s.out ++ absRun s.out n o.toNat fun v => v).length := by
      rw [List.length_append, length_absRun hin]
      omega
    exact Option.isSome_iff_exists.mpr ⟨_, List.getElem?_eq_getElem hlt⟩
  · obtain rfl := Host.Outcome.next.inj
      (((exec_commits (produced_ainv hin) (length_absRun hin _)).1 hfit).symm.trans h)
    exact getElem?_append_absRun hin hk _

end Sys2Proof.Machine
end

section
/-! SUPPORT. Family 6 and the relative copy of family 7 (43_relative_copy): the run of a relative copy is the cycle of
OUT's last `b` bytes, which is what the byte-by-byte copy reads, as a read past the old end finds an appended byte. -/

namespace Sys2Proof.Machine

variable {s t : State} {i : Instr} {b : Byte} {n : Nat}

/-! ### The run of a relative copy (R160, R162) -/

theorem getElem?_cycleRun {k : Nat} (hk : k < n) (out : List Byte) (b : Nat) :
    (cycleRun out n b)[k]? = some (out.getD (out.length - b + k % b) 0) := by
  rw [cycleRun, List.getElem?_map, List.getElem?_range hk, Option.map_some]

theorem take_cycleRun {k : Nat} (hk : k ≤ n) (out : List Byte) (b : Nat) :
    (cycleRun out n b).take k = cycleRun out k b := by
  rw [cycleRun, ← List.map_take, List.take_range, Nat.min_eq_left hk, cycleRun]

/-- Byte `k` of the run is the byte `b` behind the end of OUT as it is after the first `k` have been appended (R160). -/
theorem getElem?_cycleRun_eq_grown {out : List Byte} {b k : Nat} (hb : 1 ≤ b) (hle : b ≤ out.length) (hk : k < n) :
    (cycleRun out n b)[k]? = (out ++ (cycleRun out n b).take k)[out.length - b + k]? := by
  rw [getElem?_cycleRun hk, take_cycleRun (Nat.le_of_lt hk), getElem?_append_cycleRun hb hle]

/-- Byte `k` of the run is one of OUT's last `b` bytes, which is there (R162). -/
theorem getElem?_cycleRun_eq_old {out : List Byte} {b k : Nat} (hb : 1 ≤ b) (hle : b ≤ out.length) (hk : k < n) :
    (cycleRun out n b)[k]? = out[out.length - b + k % b]? := by
  have hmod : k % b < b := Nat.mod_lt k hb
  have hlt : out.length - b + k % b < out.length := by omega
  rw [getElem?_cycleRun hk, List.getD_eq_getElem?_getD, List.getElem?_eq_getElem hlt, Option.getD_some]

/-! ### RelCopy in its two forms (R160, R161, R175) -/

theorem produced_relCopy (hi : i = .rcpy n b ∨ i = .xrcpy n b) (out : List Byte) :
    produced out i = if 1 ≤ b.toNat ∧ b.toNat ≤ out.length then some (cycleRun out n b.toNat) else none := by
  obtain rfl | rfl := hi <;> rfl

/-- A relative copy in range commits the cycle. -/
theorem exec_relCopy_commits (hi : i = .rcpy n b ∨ i = .xrcpy n b) (hb : 1 ≤ b.toNat) (hle : b.toNat ≤ s.out.length) :
    (s.Fits n → exec i s = .next (s.appends (controlByte s.cfg.xsel i) i.length (cycleRun s.out n b.toNat))) ∧
    (¬ s.Fits n → exec i s = .next (s.raises (controlByte s.cfg.xsel i) i.length .outputOverflow)) :=
  exec_commits ((produced_relCopy hi s.out).trans (if_pos ⟨hb, hle⟩)) (length_cycleRun s.out n b.toNat)

theorem exec_relCopy_outOfRange (hi : i = .rcpy n b ∨ i = .xrcpy n b) (hout : b.toNat = 0 ∨ s.out.length < b.toNat) :
    exec i s = .next (s.raises (controlByte s.cfg.xsel i) i.length .outOfRangeReference) := by
  have hnone : produced s.out i = none := (produced_relCopy hi s.out).trans (if_neg (by omega))
  obtain rfl | rfl := hi <;> exact exec_of_not_produced nofun hnone

/-- What a relative copy does, in either form: the range check, then the capacity check, then a run of which each
byte is read from OUT as it has grown so far. -/
theorem exec_relCopy_cases (hi : i = .rcpy n b ∨ i = .xrcpy n b) (s : State) :
    (b.toNat = 0 ∨ s.out.length < b.toNat →
      exec i s = .next (s.raises (controlByte s.cfg.xsel i) i.length .outOfRangeReference)) ∧
    (1 ≤ b.toNat → b.toNat ≤ s.out.length → ¬ s.Fits n →
      exec i s = .next (s.raises (controlByte s.cfg.xsel i) i.length .outputOverflow)) ∧
    (1 ≤ b.toNat → b.toNat ≤ s.out.length → s.Fits n → ∃ new, new.length = n ∧
      (∀ k, k < n → new[k]? = (s.out ++ new.take k)[s.out.length - b.toNat + k]?) ∧
      exec i s = .next (s.appends (controlByte s.cfg.xsel i) i.length new)) :=
  ⟨exec_relCopy_outOfRange hi, fun hb hle => (exec_relCopy_commits hi hb hle).2, fun hb hle hfit =>
    ⟨_, length_cycleRun s.out n b.toNat, fun _ hk => getElem?_cycleRun_eq_grown hb hle hk,
      (exec_relCopy_commits hi hb hle).1 hfit⟩⟩

/-- Settles O17: RCPY is the relative copy whose control byte counts the run and whose operand is the distance. -/
theorem rcpyReadsWhatItAppends : Obligations.RcpyReadsWhatItAppends := by
  refine ⟨fun s n b _ _ => exec_relCopy_cases (i := .rcpy n b) (.inl rfl) s, fun s c h hf => ?_⟩
  rw [← shortCount_eq]
  exact step_atControl (f := .rcpy) h hf rfl fun _ => rfl

/-! ### The closed form (R162) -/

theorem exec_relCopy_out (hi : i = .rcpy n b ∨ i = .xrcpy n b) (hb : 1 ≤ b.toNat) (hle : b.toNat ≤ s.out.length)
    (hfit : s.Fits n) (h : exec i s = .next t) : t.out = s.out ++ cycleRun s.out n b.toNat := by
  obtain rfl := Host.Outcome.next.inj (((exec_relCopy_commits hi hb hle).1 hfit).symm.trans h)
  rfl

/-- Settles O26: either form appends the cycle, whose bytes are all bytes of the old OUT. -/
theorem relativeCopyClosedForm : Obligations.RelativeCopyClosedForm := by
  intro s t n b hb hle hfit h k hk
  have hout : t.out = s.out ++ cycleRun s.out n b.toNat :=
    h.elim (exec_relCopy_out (.inl rfl) hb hle hfit) (exec_relCopy_out (.inr rfl) hb hle hfit)
  have hread : t.outRead (s.out.length + k) = (cycleRun s.out n b.toNat)[k]? := by
    rw [State.outRead, hout, List.getElem?_append_right (Nat.le_add_right _ _), Nat.add_sub_cancel_left]
  rw [hread]
  exact ⟨getElem?_cycleRun_eq_old hb hle hk, by rw [getElem?_cycleRun hk, Option.isSome_some]⟩

end Sys2Proof.Machine
end

section
/-! SUPPORT. Family 7 (44_extended): the extended forms run as the short ones do, on a count of two more bits and one more
byte; a control byte whose selector is not assigned raises MalformedOpcode. -/

namespace Sys2Proof

/-! ### The control byte and the count byte (R95, R99, R170) -/

/-- `(aa << 8) + k + 1` with `aa = c mod 4` (R95). -/
theorem extCount_eq_shifted (c k : Byte) : extCount c k = c.toNat % 4 * 256 + k.toNat + 1 := by
  rw [extCount_eq, Nat.mul_comm]

/-- The operation whose selector value the control byte holds is the form it selects, as no two have the same. -/
theorem selects_of_selector {x : XSel} {c : Byte} (hx : x.wf = true) (hne : c ≠ 0xFF#8) (h7 : c.toNat / 32 = 7) :
    (c.toNat / 4 % 8 = x.literal.toNat → Form.xlit.Selects x c) ∧
    (c.toNat / 4 % 8 = x.fill.toNat → Form.xfill.Selects x c) ∧
    (c.toNat / 4 % 8 = x.pair.toNat → Form.xpair.Selects x c) ∧
    (c.toNat / 4 % 8 = x.rel.toNat → Form.xrcpy.Selects x c) := by
  obtain ⟨-, -, -, -, -, -, -, -, hext⟩ := opcodeMapSelectsTheForm.1 x c hx
  obtain ⟨hlit, hfill, hpair, hrel, -⟩ := hext h7 hne
  simp only [← formOf_eq_iff]
  exact ⟨hlit, hfill, hpair, hrel⟩

/-- XLIT reads its count byte and as many literal bytes as it counts (R172). -/
theorem readOperands_xlit {c k : Byte} {d : List Byte} (hd : d.length = extCount c k) (rest : List Byte) :
    readOperands c (k :: d ++ rest) .xlit = some (.xlit d) := by
  rw [List.cons_append, readOperands, ← hd, takeBytes_append]
  rfl

end Sys2Proof

namespace Sys2Proof.Machine

variable {s : State}

theorem State.Has.of_le {m n : Nat} (h : s.Has n) (hmn : m ≤ n) : s.Has m :=
  (Nat.add_le_add_left hmn _).trans h

/-- The first operand byte is the count byte, and the others follow it. -/
theorem map_operand_succ (s : State) (n : Nat) :
    (List.range (1 + n)).map s.operand = s.operand 0 :: (List.range n).map fun k => s.operand (1 + k) := by
  rw [List.range_add, List.map_append, List.map_map]
  rfl

/-! ### The four extended operations (R172 to R175) -/

/-- Settles O18: XLIT commits the bytes it carries; short of its count byte or of a literal byte, the stream holds
fewer operand bytes than the count, whatever it is, asks for. -/
theorem xlitAppendsItsBytes : Obligations.XlitAppendsItsBytes := by
  refine ⟨fun s d _ _ => exec_commits (i := .xlit d) rfl rfl, fun s c h hx hne h7 hsel => ?_⟩
  obtain ⟨hxlit, -⟩ := selects_of_selector hx hne h7
  obtain ⟨hrun, hshort⟩ := step_atControl (n := 1 + extCount c (s.operand 0)) h (hxlit hsel) rfl
    fun rest => (map_operand_succ s _).symm ▸ readOperands_xlit (by simp) rest
  rw [← Nat.add_assoc] at hrun hshort
  refine ⟨fun h2 => hshort fun hall => h2 (hall.of_le (Nat.le_add_right 2 _)), fun n hn _ => ?_⟩
  rw [hn, ← extCount_eq_shifted]
  exact ⟨hrun, hshort⟩

/-- Settles O19: XFILL commits copies of the byte after its count byte. -/
theorem xfillRepeatsItsByte : Obligations.XfillRepeatsItsByte := by
  refine ⟨fun s n v _ _ => exec_commits (i := .xfill n v) rfl List.length_replicate, fun s c h hx hne h7 hsel => ?_⟩
  obtain ⟨-, hxfill, -⟩ := selects_of_selector hx hne h7
  rw [← extCount_eq_shifted]
  exact step_atControl h (hxfill hsel) rfl fun _ => rfl

/-- Settles O20: XPAIR commits the pair run of PAIR, whose parity is that of the index within the run. -/
theorem xpairAlternatesWithinTheRun : Obligations.XpairAlternatesWithinTheRun := by
  refine ⟨fun s n p0 p1 _ _ => ?_, fun s c h hx hne h7 hsel => ?_⟩
  · obtain ⟨hfit, hfull⟩ := exec_commits (s := s) (i := .xpair n p0 p1) rfl (length_pairRun n p0 p1)
    exact ⟨fun h => ⟨_, length_pairRun n p0 p1, fun k hk => getElem?_pairRun hk p0 p1, hfit h⟩, hfull⟩
  · obtain ⟨-, -, hxpair, -⟩ := selects_of_selector hx hne h7
    rw [← extCount_eq_shifted]
    exact step_atControl h (hxpair hsel) rfl fun _ => rfl

/-- Settles O21: XRCPY is the relative copy of RCPY, with the distance after the count byte. -/
theorem xrcpyReadsWhatItAppends : Obligations.XrcpyReadsWhatItAppends := by
  refine ⟨fun s n b _ _ => exec_relCopy_cases (i := .xrcpy n b) (.inr rfl) s, fun s c h hx hne h7 hsel => ?_⟩
  obtain ⟨-, -, -, hxrcpy⟩ := selects_of_selector hx hne h7
  rw [← extCount_eq_shifted]
  exact step_atControl h (hxrcpy hsel) rfl fun _ => rfl

/-! ### The reserved control bytes (R176) -/

theorem exec_xrsv (c : Byte) (s : State) : exec (.xrsv c) s = .next (s.raises c 1 .malformedOpcode) :=
  exec_of_not_produced nofun rfl

/-- Settles O22: XRSV reads no operand, so a step at a reserved control byte runs it whatever follows. -/
theorem xrsvRaisesMalformedOpcode : Obligations.XrsvRaisesMalformedOpcode := by
  refine ⟨fun s c => exec_xrsv c s, fun s c h h7 hne hlit hfill hpair hrel => ?_⟩
  have ⟨_, _, hin, _⟩ := h
  have hf : Form.xrsv.Selects s.cfg.xsel c := ⟨⟨h7, hne⟩, XSel.assigned_eq_false_iff.mpr
    ⟨mt selector_eq_iff.mp hlit, mt selector_eq_iff.mp hfill, mt selector_eq_iff.mp hpair,
      mt selector_eq_iff.mp hrel⟩⟩
  exact ((step_atControl h hf rfl fun _ => rfl).1 hin).trans (exec_xrsv c s)

/-! ### The short and the extended form (R177) -/

/-- With the same verdict two opcodes leave the same OUT, PHASE, ERR and OP_POS, and each its own SRC_POS. -/
theorem completes_agree (s : State) {j k : Instr} (hlen : k.length = j.length + 1) (r : Except ErrCode (List Byte)) :
    (s.completes k r).out = (s.completes j r).out ∧ (s.completes k r).phase = (s.completes j r).phase ∧
    (s.completes k r).err = (s.completes j r).err ∧ (s.completes k r).srcPos = (s.completes j r).srcPos + 1 ∧
    (s.completes k r).opPos = (s.completes j r).opPos := by
  have hpos : s.srcPos + k.length = s.srcPos + j.length + 1 := by rw [hlen, Nat.add_assoc]
  cases r with
  | ok new => exact ⟨rfl, rfl, rfl, hpos, rfl⟩
  | error e => exact ⟨rfl, rfl, rfl, hpos, rfl⟩

/-- Two opcodes whose verdict is the same and of which the second is one byte longer have the same effect. -/
theorem exec_agree {j k : Instr} (hj : j ≠ .endStream) (hk : k ≠ .endStream)
    (hverdict : verdict s.cfg s.out k = verdict s.cfg s.out j) (hlen : k.length = j.length + 1) :
    ∃ t u, exec j s = .next t ∧ exec k s = .next u ∧ u.out = t.out ∧ u.phase = t.phase ∧
      u.err = t.err ∧ u.srcPos = t.srcPos + 1 ∧ u.opPos = t.opPos :=
  ⟨_, _, exec_eq_completes hj s, hverdict ▸ exec_eq_completes hk s, completes_agree s hlen _⟩

/-- Settles O28: either form of an operation has the same verdict, and the count byte makes one form longer. -/
theorem shortAndExtendedFormsAgree : Obligations.ShortAndExtendedFormsAgree := by
  rintro s n d v p0 p1 b j k (⟨rfl, rfl⟩ | ⟨rfl, rfl⟩ | ⟨rfl, rfl⟩ | ⟨rfl, rfl⟩)
  · exact exec_agree nofun nofun rfl (Nat.add_right_comm 1 1 d.length)
  all_goals exact exec_agree nofun nofun rfl rfl

end Sys2Proof.Machine
end

section
/-! SUPPORT. TEX (45_tile_expander): TILEX moves each of the 256 bits of a record to one bit of one lane, so it can be
undone bit by bit, and the tile fetch is a slice of OUT. -/

namespace Sys2Proof.Machine

/-! ### The planes of a row (R185, R186) -/

theorem bitOf_eq_div_mod (v : Byte) (k : Nat) : bitOf v k = v.toNat / 2 ^ k % 2 :=
  Nat.toNat_testBit v.toNat k

theorem bitOf_le_one (v : Byte) (k : Nat) : bitOf v k ≤ 1 :=
  Bool.toNat_le _

/-- The weighted sum of a lane fits its 4 bits. -/
theorem toNat_tilePixel (t : Tile) (y x : Fin 8) :
    (tilePixel t y x).toNat = bitOf t[2 * y.val] (7 - x.val) + 2 * bitOf t[2 * y.val + 1] (7 - x.val)
      + 4 * bitOf t[2 * y.val + 16] (7 - x.val) + 8 * bitOf t[2 * y.val + 17] (7 - x.val) := by
  have hA := bitOf_le_one t[2 * y.val] (7 - x.val)
  have hB := bitOf_le_one t[2 * y.val + 1] (7 - x.val)
  have hC := bitOf_le_one t[2 * y.val + 16] (7 - x.val)
  have hD := bitOf_le_one t[2 * y.val + 17] (7 - x.val)
  exact Nat.mod_eq_of_lt (by omega)

theorem getElem?_tilex (t : Tile) (y x : Fin 8) :
    ((tilex t)[y.val]?.bind fun row => row[x.val]?) = some (tilePixel t y x) := by
  simp [tilex]

theorem length_tilex (t : Tile) : (tilex t).length = 8 := by
  rw [tilex, List.length_map, List.length_finRange]

theorem length_row_of_mem_tilex {t : Tile} {row : List PixelIndex} (h : row ∈ tilex t) : row.length = 8 := by
  obtain ⟨y, -, rfl⟩ := List.mem_map.mp h
  rw [List.length_map, List.length_finRange]

/-- Settles O34: the sum is exact as it fits 4 bits, and the rows and columns of TILEX are the eight of each. -/
theorem tilexCombinesFourPlanes : Obligations.TilexCombinesFourPlanes := by
  refine ⟨fun t y x => ?_, getElem?_tilex, fun t => ⟨length_tilex t, fun _ => length_row_of_mem_tilex⟩⟩
  rw [toNat_tilePixel]
  simp only [bitOf_eq_div_mod]

/-! ### TILEX bit by bit (R189) -/

/-- The byte of a record that holds plane `p` of row `y`; each byte is that of one plane of one row. -/
def planeByte : Fin 4 × Fin 8 ≃ Fin 32 where
  toFun r := ⟨2 * r.2.val + (r.1.val % 2 + 16 * (r.1.val / 2)), by omega⟩
  invFun i := (⟨i.val % 2 + 2 * (i.val / 16), by omega⟩, ⟨i.val % 16 / 2, by omega⟩)
  left_inv := by decide
  right_inv := by decide

theorem val_planeByte (p : Fin 4) (y : Fin 8) :
    (planeByte (p, y)).val = 2 * y.val + (p.val % 2 + 16 * (p.val / 2)) := rfl

/-- Bit `7 - x`: column 0 is the most significant bit of a plane byte. -/
theorem bitOf_column (v : Byte) (x : Fin 8) : bitOf v (7 - x.val) = (v.getLsb x.rev).toNat := by
  rw [← Nat.add_sub_add_right 7 1 x.val, ← Fin.val_rev]
  rfl

theorem ofBits_four (f : Fin 4 → Bool) :
    Nat.ofBits f = (f 0).toNat + 2 * (f 1).toNat + 4 * (f 2).toNat + 8 * (f 3).toNat := by
  have hhorner : Nat.ofBits f =
    2 * (2 * (2 * (2 * 0 + (f 3).toNat) + (f 2).toNat) + (f 1).toNat) + (f 0).toNat := rfl
  omega

/-- Lane `(y, x)` is the bits `7 - x` of the four planes of row `y`, plane A the least significant (R186). -/
theorem tilePixel_eq_ofFnLE (t : Tile) (y x : Fin 8) :
    tilePixel t y x = BitVec.ofFnLE fun p => t[planeByte (p, y)].getLsb x.rev := by
  refine BitVec.eq_of_toNat_eq ?_
  rw [toNat_tilePixel, BitVec.toNat_ofFnLE, ofBits_four]
  simp [bitOf_column, val_planeByte]

theorem getLsb_tilePixel (t : Tile) (y x : Fin 8) (p : Fin 4) :
    (tilePixel t y x).getLsb p = t[planeByte (p, y)].getLsb x.rev := by
  rw [tilePixel_eq_ofFnLE, BitVec.getLsb_ofFnLE]

/-- The record whose byte for plane `p` of row `y` holds in bit `7 - x` bit `p` of the grid's lane `(y, x)`. -/
def gridRecord (g : Fin 8 → Fin 8 → PixelIndex) : Tile :=
  Vector.ofFn fun i => BitVec.ofFnLE fun k => (g (planeByte.symm i).2 k.rev).getLsb (planeByte.symm i).1

theorem getLsb_gridRecord (g : Fin 8 → Fin 8 → PixelIndex) (i : Fin 32) (k : Fin 8) :
    (gridRecord g)[i].getLsb k = (g (planeByte.symm i).2 k.rev).getLsb (planeByte.symm i).1 := by
  rw [gridRecord, Fin.getElem_fin, Vector.getElem_ofFn, BitVec.getLsb_ofFnLE]

theorem gridRecord_tilePixel (t : Tile) : gridRecord (tilePixel t) = t := by
  ext i hi k hk
  have hbit := getLsb_gridRecord (tilePixel t) ⟨i, hi⟩ ⟨k, hk⟩
  simp only [getLsb_tilePixel, Prod.mk.eta, Equiv.apply_symm_apply, Fin.rev_rev] at hbit
  exact hbit

theorem tilePixel_gridRecord (g : Fin 8 → Fin 8 → PixelIndex) : tilePixel (gridRecord g) = g := by
  funext y x
  ext p hp
  have hbit := getLsb_tilePixel (gridRecord g) y x ⟨p, hp⟩
  rwa [getLsb_gridRecord, Equiv.symm_apply_apply, Fin.rev_rev] at hbit

/-- Settles O35: packing a grid's bits into a record undoes TILEX on either side. -/
theorem tilexIsABijection : Obligations.TilexIsABijection :=
  Function.bijective_iff_has_inverse.mpr ⟨gridRecord, gridRecord_tilePixel, tilePixel_gridRecord⟩

/-! ### The tile fetch (R187, R216) -/

variable {out : List Byte} {i : Nat} {t : Tile}

theorem length_recordSlice_iff : ((out.drop (32 * i)).take 32).length = 32 ↔ i < out.length / 32 := by
  rw [List.length_take, List.length_drop]
  omega

theorem tileRecord_of_lt (h : i < out.length / 32) :
    ∃ t, tileRecord out i = some t ∧ t.toList = (out.drop (32 * i)).take 32 :=
  ⟨_, dif_pos (length_recordSlice_iff.mpr h), rfl⟩

theorem tileRecord_of_ge (h : out.length / 32 ≤ i) : tileRecord out i = none :=
  dif_neg (mt length_recordSlice_iff.mp h.not_gt)

theorem getElem?_of_recordSlice (h : t.toList = (out.drop (32 * i)).take 32) {j : Nat} (hj : j < 32) :
    out[32 * i + j]? = some t[j] := by
  rw [← List.getElem?_drop, ← List.getElem?_take_of_lt hj, ← h]
  simp [hj]

/-- A record that lies wholly in OUT is the same slice once OUT has grown. -/
theorem tileRecord_append (h : i < out.length / 32) (tail : List Byte) :
    tileRecord (out ++ tail) i = tileRecord out i := by
  have hin : 32 * i + 32 ≤ out.length := by omega
  have hslice : ((out ++ tail).drop (32 * i)).take 32 = (out.drop (32 * i)).take 32 := by
    rw [List.drop_append_of_le_length (by omega),
      List.take_append_of_le_length (by rw [List.length_drop]; omega)]
  simp only [tileRecord, hslice]

/-- Settles O36: the slice is whole exactly below the record count, and a whole slice is not changed by an append. -/
theorem tileRecordIsThirtyTwoBytes : Obligations.TileRecordIsThirtyTwoBytes := by
  refine ⟨fun out i h => ?_, fun out i => tileRecord_of_ge, fun out tail i h => tileRecord_append h tail⟩
  obtain ⟨t, ht, hslice⟩ := tileRecord_of_lt h
  exact ⟨t, ht, fun j hj => getElem?_of_recordSlice hslice hj⟩

end Sys2Proof.Machine
end

section
/-! SUPPORT. PAL (46_palette_mapper): the arithmetic of both palettes fits a byte, the fields PALCONV reads end below
bit 15, and PALMAP has one equation per value of PAL_SEL. -/

namespace Sys2Proof.Machine

/-! ### The ROM palette (R196, R198) -/

theorem toNat_palRom_r (p : PixelIndex) : (palRom p).r.toNat = 17 * p.toNat :=
  Nat.mod_eq_of_lt (by have := p.isLt; omega)

/-- The index written twice as a byte is `16 p + p`. -/
theorem toNat_append_self (p : PixelIndex) : (p ++ p).toNat = 17 * p.toNat := by
  rw [BitVec.toNat_append, ← Nat.shiftLeft_add_eq_or_of_lt p.isLt, Nat.shiftLeft_eq]
  omega

/-- Settles O37: the channels of an entry are one byte, and `17 p` fits it. -/
theorem paletteRomIsTheGreyRamp : Obligations.PaletteRomIsTheGreyRamp := fun p =>
  ⟨toNat_palRom_r p, toNat_palRom_r p, toNat_palRom_r p,
    BitVec.eq_of_toNat_eq ((toNat_palRom_r p).trans (toNat_append_self p).symm)⟩

/-! ### PALCONV (R197, R198) -/

theorem toNat_scaleChannel (c : BitVec 5) : (scaleChannel c).toNat = 8 * c.toNat :=
  Nat.mod_eq_of_lt (by have := c.isLt; omega)

/-- The scaled field of five bits from bit `k` on, as arithmetic on the word. -/
theorem toNat_scaleChannel_extract (w : Half) (k : Nat) :
    (scaleChannel (w.extractLsb' k 5)).toNat = 8 * (w.toNat / 2 ^ k % 32) := by
  rw [toNat_scaleChannel, BitVec.extractLsb'_toNat, Nat.shiftRight_eq_div_pow]

/-- A word with no bit in the three fields changes no colour. -/
theorem palConv_xor_of_fields_zero (w : Half) {m : Half} (hr : m.extractLsb' 0 5 = 0#5)
    (hg : m.extractLsb' 5 5 = 0#5) (hb : m.extractLsb' 10 5 = 0#5) : palConv (w ^^^ m) = palConv w := by
  simp only [palConv, BitVec.extractLsb'_xor, hr, hg, hb, BitVec.xor_zero]

/-- Settles O38: each channel is a scaled field, and bit 15 lies in none of the three. -/
theorem paletteConversion : Obligations.PaletteConversion := by
  refine fun w => ⟨?_, toNat_scaleChannel_extract w 5, toNat_scaleChannel_extract w 10,
    palConv_xor_of_fields_zero w rfl rfl rfl⟩
  have hred : (palConv w).r.toNat = 8 * (w.toNat / 2 ^ 0 % 32) := toNat_scaleChannel_extract w 0
  rwa [pow_zero, Nat.div_one] at hred

/-! ### PALMAP (R195) -/

variable {s : State}

theorem palMap_of_rom (h : s.palSel = false) (p : PixelIndex) : s.palMap p = palRom p := by
  rw [State.palMap, h, if_neg Bool.false_ne_true]

theorem palMap_of_ram (h : s.palSel = true) (p : PixelIndex) : s.palMap p = palConv (s.palWord p.toNat) :=
  if_pos h

theorem palWord_of_pushed {i : Nat} {w : Half} (h : s.palRam[i]? = some w) : s.palWord i = w := by
  rw [State.palWord, h, Option.getD_some]

/-- Settles O39: PAL_SEL picks the palette, and the entry of an index that was pushed is the word pushed. -/
theorem paletteMapFollowsPalSel : Obligations.PaletteMapFollowsPalSel := by
  refine ⟨fun s p hrom => palMap_of_rom hrom p, fun s p w hram hpushed => ?_⟩
  rw [palMap_of_ram hram, palWord_of_pushed hpushed]

end Sys2Proof.Machine
end

section
/-! SUPPORT. The render (47_image_composer): the render start by the outcome of its checks, the pixels one tile writes,
and the run of REN, after each step of which the tiles rendered so far hold their colours. -/

namespace Sys2Proof.Machine

variable {s : State}

/-! ### The render start (R211) -/

theorem hostMove_render (hp : s.phase = .decoded) : hostMove (.cmd 2) s = .next (renderStart s) :=
  congrArg Host.Outcome.next (writeCmd_render hp)

theorem renderStart_of_shortPalette (hpal : s.palSel = true ∧ s.palRam.length < 16) :
    renderStart s = { s with err := .configurationError, phase := .fault } :=
  if_pos hpal

theorem renderStart_of_partialRow (hpal : ¬ (s.palSel = true ∧ s.palRam.length < 16))
    (htiles : s.out.length / 32 % 16 ≠ 0) : renderStart s = { s with err := .rasterRange, phase := .fault } :=
  (if_neg hpal).trans (if_pos htiles)

theorem renderStart_of_checked (hpal : ¬ (s.palSel = true ∧ s.palRam.length < 16))
    (htiles : s.out.length / 32 % 16 = 0) :
    renderStart s = { s with
      tTiles := s.out.length / 32, rasterH := s.out.length / 64, raster := [], tileIdx := 0, phase := .render } :=
  (if_neg hpal).trans (if_neg (not_not.mpr htiles))

/-- Settles O40: the command is the render start, whose checks leave three cases. -/
theorem renderStartChecksThenLatches : Obligations.RenderStartChecksThenLatches := by
  intro s hp
  rw [hostMove_render hp]
  exact ⟨fun hpal => congrArg _ (renderStart_of_shortPalette hpal),
    fun hpal htiles => congrArg _ (renderStart_of_partialRow hpal htiles),
    fun hpal htiles => congrArg _ (renderStart_of_checked hpal htiles)⟩

/-! ### The pixels of one tile (R214, R215) -/

/-- The pixel writes of a tile, listed by its rows and columns. -/
theorem tileWrites_eq_map_product (s : State) (i : Nat) (t : Tile) :
    tileWrites s i t = (List.finRange 8 ×ˢ List.finRange 8).map fun p =>
      (pixelKey (composeX i p.2.val) (composeY i p.1.val), s.palMap (tilePixel t p.1 p.2)) := by
  simp [tileWrites, List.product, SProd.sprod, List.map_flatMap, Function.comp_def]

/-- Two pixels of one tile have the same raster address only where they are the same pixel. -/
theorem compose_injective (i : Nat) :
    Function.Injective fun p : Fin 8 × Fin 8 => pixelKey (composeX i p.2.val) (composeY i p.1.val) := by
  rintro ⟨y, x⟩ ⟨y', x'⟩ h
  simp only [pixelKey, composeX, composeY] at h
  rw [Prod.mk.injEq, Fin.ext_iff, Fin.ext_iff]
  omega

theorem nodup_tileWrites (s : State) (i : Nat) (t : Tile) : ((tileWrites s i t).map Prod.fst).Nodup := by
  rw [tileWrites_eq_map_product, List.map_map]
  exact ((List.nodup_finRange 8).product (List.nodup_finRange 8)).map (compose_injective i)

/-- After a tile is composed each of its pixels reads in its colour, as no other pixel of the tile is written there. -/
theorem read_tileWrites_same (s : State) (m : RasterMem) (i : Nat) (t : Tile) (y x : Fin 8) :
    Cells.read (Cells.writeAll m (tileWrites s i t)) (pixelKey (composeX i x.val) (composeY i y.val))
      = some (s.palMap (tilePixel t y x)) := by
  refine Cells.read_writeAll_mem (nodup_tileWrites s i t) ?_
  rw [tileWrites_eq_map_product]
  exact List.mem_map.mpr ⟨(y, x), List.mem_product.mpr ⟨List.mem_finRange y, List.mem_finRange x⟩, rfl⟩

/-- The pixels of the other tiles read as before. -/
theorem read_tileWrites_other (s : State) (m : RasterMem) {i : Nat} (t : Tile) {px py : Nat} (hx : px < 128)
    (hi : tileAt px py ≠ i) :
    Cells.read (Cells.writeAll m (tileWrites s i t)) (pixelKey px py) = Cells.read m (pixelKey px py) := by
  refine Cells.read_writeAll_other fun c hc hkey => hi ?_
  have hcol : pixelKey px py % 128 = px := by unfold pixelKey; omega
  have hrow : pixelKey px py / 128 = py := by unfold pixelKey; omega
  rw [← tileAt_of_mem_tileWrites hc, hkey, hcol, hrow]

/-! ### One step of REN (R212) -/

theorem step_of_render (hp : s.phase = .render) (hbox : s.inbox = []) : step s = renStep s := by
  rw [step_of_empty hbox, agentTurn_of_render hp]

theorem renStep_of_done (hdone : s.tileIdx = s.tTiles) : renStep s = .next { s with phase := .rendered } :=
  if_pos hdone

theorem renStep_of_tile {t : Tile} (hne : s.tileIdx ≠ s.tTiles) (ht : tileRecord s.out s.tileIdx = some t)
    (hrow : composeY s.tileIdx 7 < s.rasterH) :
    renStep s = .next { s with
      raster := Cells.writeAll s.raster (tileWrites s s.tileIdx t), tileIdx := s.tileIdx + 1 } := by
  rw [renStep, if_neg hne, ht]
  exact if_pos hrow

/-- Settles O41: the raster after a tile is its 64 writes over the raster before. -/
theorem renderStepComposesOneTile : Obligations.RenderStepComposesOneTile := by
  refine ⟨fun s hp hbox hdone => ?_, fun s t hp hbox hne ht hrow => ⟨_, ?_, read_tileWrites_same s _ _ t,
    fun px py hx hother => read_tileWrites_other s _ t hx hother⟩⟩
  · rw [step_of_render hp hbox, renStep_of_done hdone]
  · rw [step_of_render hp hbox, renStep_of_tile hne ht hrow]

/-! ### A whole render (R212, R213, R215) -/

/-- The lane of raster pixel (X, Y) in the record of its tile is the index of its four plane bits. -/
theorem tilePixel_eq_indexAt {out : List Byte} {px py : Nat} {t : Tile}
    (ht : t.toList = (out.drop (32 * tileAt px py)).take 32) :
    tilePixel t (Fin.ofNat 8 py) (Fin.ofNat 8 px) = BitVec.ofNat 4 (indexAt out px py) := by
  have hplane (j : Nat) (hj : j < 32) : bitOf t[j] (7 - px % 8) = planeBitAt out px py j := by
    rw [planeBitAt, bitOf_eq_div_mod, List.getD_eq_getElem?_getD, getElem?_of_recordSlice ht hj, Option.getD_some]
  simp only [tilePixel, indexAt, Fin.val_ofNat, hplane]

/-- In `r` every pixel of the first `n` tiles holds the palette colour of its index in OUT. -/
def State.Composed (s : State) (r : RasterMem) (n : Nat) : Prop :=
  ∀ px py, px < 128 → tileAt px py < n →
    Cells.read r (pixelKey px py) = some (s.palMap (BitVec.ofNat 4 (indexAt s.out px py)))

theorem State.Composed.zero (s : State) (r : RasterMem) : s.Composed r 0 :=
  fun _ _ _ h => absurd h (Nat.not_lt_zero _)

/-- One more tile: its own pixels are written, those of the tiles before it stay. -/
theorem State.Composed.succ {r : RasterMem} {n : Nat} {t : Tile} (h : s.Composed r n)
    (ht : t.toList = (s.out.drop (32 * n)).take 32) :
    s.Composed (Cells.writeAll r (tileWrites s n t)) (n + 1) := by
  intro px py hx hlt
  by_cases hn : tileAt px py = n
  · subst hn
    have hcol : composeX (tileAt px py) (Fin.ofNat 8 px).val = px := by
      simp only [composeX, tileAt, Fin.val_ofNat]
      omega
    have hrow : composeY (tileAt px py) (Fin.ofNat 8 py).val = py := by
      simp only [composeY, tileAt, Fin.val_ofNat]
      omega
    have hread := read_tileWrites_same s r (tileAt px py) t (Fin.ofNat 8 py) (Fin.ofNat 8 px)
    rwa [hcol, hrow, tilePixel_eq_indexAt ht] at hread
  · rw [read_tileWrites_other s r t hx hn]
    exact h px py hx (by omega)

/-- What the render start leaves where its checks pass, no host move pending: whole tile rows still to be rendered. -/
structure State.Latched (s : State) : Prop where
  phase : s.phase = .render
  inbox : s.inbox = []
  tiles : s.tTiles = s.out.length / 32
  rows : s.rasterH = s.out.length / 64
  wholeRows : s.out.length / 32 % 16 = 0
  first : s.tileIdx = 0

theorem run_then_step {t u : State} {k : Nat} (h : core.run k s = .next t) (hstep : step t = .next u) :
    core.run (k + 1) s = .next u := by
  induction k generalizing s with
  | zero =>
    cases h
    exact run_succ hstep 0
  | succ k ih =>
    cases hs : step s with
    | next v => exact (run_succ hs _).trans (ih (run_succ hs k ▸ h))
    | fault r | refused r => simp [Host.Core.run, core, hs] at h

/-- After `k` steps of REN the first `k` tiles are composed, and nothing but RASTER and TILE_IDX has changed. -/
theorem State.Latched.run_tiles (h : s.Latched) {k : Nat} (hk : k ≤ s.out.length / 32) :
    ∃ r, core.run k s = .next { s with raster := r, tileIdx := k } ∧ s.Composed r k := by
  induction k with
  | zero =>
    have unchanged : ({ s with tileIdx := 0 } : State) = s := by rw [← h.first]
    exact ⟨s.raster, congrArg Host.Outcome.next unchanged.symm, .zero s _⟩
  | succ k ih =>
    obtain ⟨r, hrun, hr⟩ := ih (Nat.le_of_succ_le hk)
    obtain ⟨t, ht, hslice⟩ := tileRecord_of_lt hk
    have hne : k ≠ s.tTiles := by
      rw [h.tiles]
      omega
    have hrow : composeY k 7 < s.rasterH := by
      have := h.wholeRows
      rw [h.rows, composeY]
      omega
    have hstep := (step_of_render (s := { s with raster := r, tileIdx := k }) h.phase h.inbox).trans
      (renStep_of_tile hne ht hrow)
    exact ⟨_, run_then_step hrun hstep, hr.succ hslice⟩

/-- After the last tile one more step ends the render. -/
theorem State.Latched.run_whole (h : s.Latched) :
    ∃ r, core.run (s.out.length / 32 + 1) s
      = .next { s with raster := r, tileIdx := s.out.length / 32, phase := .rendered } ∧
      s.Composed r (s.out.length / 32) := by
  obtain ⟨r, hrun, hr⟩ := h.run_tiles le_rfl
  have hstep := (step_of_render (s := { s with raster := r, tileIdx := s.out.length / 32 }) h.phase h.inbox).trans
    (renStep_of_done h.tiles.symm)
  exact ⟨r, run_then_step hrun hstep, hr⟩

/-- The tiles of whole tile rows cover the raster, which has eight pixel rows for each (R211, R215). -/
theorem tileAt_lt {px py n : Nat} (hn : n / 32 % 16 = 0) (hx : px < 128) (hy : py < n / 64) :
    tileAt px py < n / 32 := by
  unfold tileAt
  omega

/-- Settles O42: the command latches, a step of REN for each tile composes it, and the tiles cover the raster. -/
theorem renderRunProducesTheRaster : Obligations.RenderRunProducesTheRaster := by
  intro s hp hbox hpal htiles
  have hstart := ((step_of_hostMove hbox).trans (hostMove_render (s := { s with inbox := [] }) hp)).trans
    (congrArg Host.Outcome.next (renderStart_of_checked (s := { s with inbox := [] }) hpal htiles))
  obtain ⟨r, hrun, hr⟩ := State.Latched.run_whole
    (s := { s with
      inbox := [], tTiles := s.out.length / 32, rasterH := s.out.length / 64, raster := [], tileIdx := 0,
      phase := .render })
    ⟨rfl, rfl, rfl, rfl, htiles, rfl⟩
  refine ⟨_, (run_succ hstart _).trans hrun, rfl, rfl, rfl, rfl, rfl, fun px py hx hy => ?_⟩
  exact (hostReadRaster_of_rendered rfl hx hy).trans (hr px py hx (tileAt_lt htiles hx hy))

end Sys2Proof.Machine
end

section
/-! SUPPORT. Exceptions (60_exceptions): a step that faults has written what `raises` says and nothing else, the first
failing check gives the code, and FAULT is left by a reset alone. -/

namespace Sys2Proof.Machine

variable {s t : State}

/-! ### Fault entry (R228) -/

/-- A fetched opcode's control byte is the byte at the program counter (R104, R120). -/
theorem controlByte_of_fetch {i : Instr} (h : s.fetch = .ok i) :
    s.srcBase + s.srcPos < s.cfg.srcSize ∧ controlByte s.cfg.xsel i = s.srcByte (s.srcBase + s.srcPos) := by
  have hlt : s.srcBase + s.srcPos < s.cfg.srcSize :=
    (Nat.lt_add_of_pos_right i.length_pos).trans_le (fetch_ok_inside h)
  obtain ⟨-, rest, hbytes⟩ := decodedBytesAreTheEncoding _ _ _ h
  rw [stream_cons hlt] at hbytes
  exact ⟨hlt, (List.cons.inj hbytes).1.symm⟩

/-- What a step of DEC that ends in FAULT has done: raised before it read, or after the control byte. -/
theorem decStep_fault (hp : s.phase = .decode) (h : decStep s = .next t) (hfault : t.phase = .fault) :
    (s.cfg.srcSize ≤ s.srcBase + s.srcPos ∧ t = s.raises s.ctl 0 .sourceExhausted) ∨
    (s.srcBase + s.srcPos < s.cfg.srcSize ∧ ∃ len e, e ≠ .none ∧
      t = s.raises (s.srcByte (s.srcBase + s.srcPos)) len e) := by
  obtain ⟨i, hi, ho⟩ | ⟨e, he, rfl⟩ := decStep_cases h
  · obtain ⟨hlt, hctl⟩ := controlByte_of_fetch hi
    obtain ⟨e, he, rfl⟩ | ⟨-, rfl⟩ | ⟨new, -, -, rfl⟩ := ho
    · have hne : e ≠ .none := by obtain rfl | rfl | rfl := he <;> decide
      exact .inr ⟨hlt, i.length, e, hne, hctl ▸ rfl⟩
    · cases hfault
    · exact absurd (hp.symm.trans hfault) (by decide)
  · obtain ⟨hend, heq⟩ | ⟨hlt, heq⟩ := fetchFault_cases he
    · exact .inl ⟨hend, heq⟩
    · exact .inr ⟨hlt, _, _, by decide, heq⟩

/-- Settles O31: `raises` writes the diagnostics, ERR and PHASE, and a failed render start only the last two. -/
theorem faultEntryIsTheWholeEffect : Obligations.FaultEntryIsTheWholeEffect := by
  refine ⟨fun s t hp hbox h hfault => ?_, fun s t hp h hfault => ?_⟩
  · rw [step_of_decode hp hbox] at h
    obtain ⟨hend, rfl⟩ | ⟨hlt, len, e, he, rfl⟩ := decStep_fault hp h hfault
    · exact ⟨rfl, by simp, le_rfl, fun _ => ⟨rfl, rfl⟩, fun hlt => absurd hlt hend.not_gt⟩
    · exact ⟨rfl, he, Nat.le_add_right _ _, fun hend => absurd hlt hend.not_gt, fun _ => rfl⟩
  · rw [hostMove_render hp] at h
    cases h
    obtain ⟨-, -, heq⟩ | ⟨-, -, heq⟩ | ⟨-, -, heq⟩ := renderStart_cases s <;> rw [heq] at hfault ⊢
    · exact ⟨rfl, by simp⟩
    · exact ⟨rfl, by simp⟩
    · cases hfault

/-! ### The order of the checks (R230) -/

/-- A reserved control byte raises before an operand is looked for, whatever the selector assignment (R176, R230). -/
theorem step_of_reservedControl {c : Byte} (h : s.AtControl c) (hc : reservedControl s.cfg.xsel c = true) :
    step s = .next (s.raises c 1 .malformedOpcode) := by
  have ⟨_, _, hin, _⟩ := h
  exact ((step_atControl (f := .xrsv) h (reservedControl_iff.mp hc) rfl fun _ => rfl).1 hin).trans (exec_xrsv c s)

/-- An opcode read whole that produces nothing, and is neither END nor reserved, is out of range (R223). -/
theorem exec_of_outOfRange {i : Instr} (hend : i ≠ .endStream) (hxrsv : ∀ c, i ≠ .xrsv c)
    (hnone : produced s.out i = none) :
    exec i s = .next (s.raises (controlByte s.cfg.xsel i) i.length .outOfRangeReference) := by
  have hform : i.form ≠ .xrsv := by
    cases i with
    | xrsv c => exact absurd rfl (hxrsv c)
    | _ => nofun
  rw [exec_of_not_produced hend hnone, if_neg hform]

/-- Settles O32: each check that fails, with those before it passed, gives the step and so its code. -/
theorem faultPriority : Obligations.FaultPriority := by
  refine ⟨fun s hp hbox => ?_, fun s hp => ⟨_, hostMove_render hp, fun hsel hlen => ?_, fun hpal htiles => ?_⟩⟩
  · obtain ⟨t, ht⟩ := decStep_next s
    have hstep : step s = .next t := (step_of_decode hp hbox).trans ht
    have errOf {u : State} (hu : decStep s = .next u) : t.err = u.err :=
      congrArg State.err (Host.Outcome.next.inj (ht.symm.trans hu))
    have errOfError {e : DecodeError} (he : s.fetch = .error e) : t.err = .sourceExhausted :=
      (errOf (decStep_of_error he)).trans (fetchFault_err s e)
    refine ⟨t, hstep, fun hend => errOfError (fetch_of_exhausted hend), fun c hat hc => ?_,
      fun c _ he => errOfError he, fun i hi hend hxrsv hnone => ?_, fun i new hi hnew hfull => ?_⟩
    · exact congrArg State.err (Host.Outcome.next.inj (hstep.symm.trans (step_of_reservedControl hat hc)))
    · exact errOf ((decStep_of_ok hi).trans (exec_of_outOfRange hend hxrsv hnone))
    · exact errOf ((decStep_of_ok hi).trans ((exec_commits hnew rfl).2 hfull))
  · rw [renderStart_of_shortPalette ⟨hsel, hlen⟩]
  · rw [renderStart_of_partialRow hpal htiles]

/-! ### The exit from FAULT (R231) -/

/-- A host move in FAULT is a reset or has no effect. -/
theorem hostMove_of_fault {m : HostMove} (hp : s.phase = .fault) (h : hostMove m s = .next t) :
    t = s ∨ (m = .hardReset ∨ m = .cmd 3) ∧ t = s.resetMachine := by
  obtain rfl | ⟨-, hp', -⟩ | ⟨-, hp', -⟩ | ⟨hm, rfl⟩ | ⟨_, _, _, -, hp', -⟩ | ⟨_, -, hp', -⟩ | ⟨_, -, hp', -⟩ |
    ⟨_, _, -, hp', -⟩ := hostMove_cases h
  case inl => exact .inl rfl
  case inr.inr.inr.inl => exact .inr ⟨hm.symm.imp_right And.left, rfl⟩
  all_goals exact absurd (hp.symm.trans hp') (by decide)

/-- Settles O33: the agent's turn changes nothing in FAULT, and a host move resets or changes nothing. -/
theorem faultIsLeftOnlyByReset : Obligations.FaultIsLeftOnlyByReset := by
  intro s t hp h
  obtain ⟨-, h⟩ | ⟨m, hm, h⟩ := step_cases h
  · have hturn := agentTurn_of_neither (s := { s with inbox := s.inbox.tail }) (.inr (.inr (.inr hp)))
    exact .inl (Host.Outcome.next.inj (h.symm.trans hturn))
  · obtain rfl | ⟨rfl | rfl, rfl⟩ := hostMove_of_fault (s := { s with inbox := s.inbox.tail }) hp h
    · exact .inl rfl
    · exact .inr ⟨.inl hm, rfl, rfl, rfl, rfl, rfl, rfl⟩
    · exact .inr ⟨.inr hm, rfl, rfl, rfl, rfl, rfl, rfl⟩

end Sys2Proof.Machine
end

section
/-! SUPPORT. Reset and hazards (70_reset_and_hazards): what the two resets write, and a copy with no byte to copy. -/

namespace Sys2Proof.Machine

/-! ### Reset (R250) -/

/-- Settles O45: the input resets by definition, the command in the phases in which the host owns the machine. -/
theorem resetGivesTheResetState : Obligations.ResetGivesTheResetState := by
  refine ⟨fun s => rfl, fun s hdecode hrender => congrArg Host.Outcome.next (writeCmd_reset ?_),
    fun s hp => congrArg Host.Outcome.next (writeCmd_ignored ?_ ?_ ?_)⟩
  · exact not_not.mp fun hn => ((not_hostOwned_iff _).mp hn).elim hdecode hrender
  · exact fun h => absurd h.1 (by decide)
  · exact fun h => absurd h.1 (by decide)
  · exact fun h => (not_hostOwned_iff _).mpr hp h.2

/-! ### A copy as the first opcode (R263) -/

/-- With OUT empty no slice of at least one byte lies in it, and no distance but 0 reaches into it. -/
theorem produced_copy_of_empty {n : Nat} {o : Half} {b : Byte} {i : Instr} (hn : 1 ≤ n)
    (hi : i = .acpy n o ∨ i = .ainv n o ∨ i = .rcpy n b ∨ i = .xrcpy n b) : produced [] i = none := by
  have habs : ¬ o.toNat + n ≤ ([] : List Byte).length := by
    rw [List.length_nil]
    omega
  have hrel : ¬ (1 ≤ b.toNat ∧ b.toNat ≤ ([] : List Byte).length) := by
    rw [List.length_nil]
    omega
  obtain rfl | rfl | rfl | rfl := hi
  · exact if_neg habs
  · exact if_neg habs
  · exact if_neg hrel
  · exact if_neg hrel

/-- Settles O29: a copy that produces nothing is out of range, and leaves OUT empty. -/
theorem copyAsFirstOpcodeFaults : Obligations.CopyAsFirstOpcodeFaults := by
  intro s n o b i hout hn hi
  have hnone : produced s.out i = none := hout ▸ produced_copy_of_empty hn hi
  obtain ⟨hend, hxrsv⟩ : i ≠ .endStream ∧ ∀ c, i ≠ .xrsv c := by
    obtain rfl | rfl | rfl | rfl := hi <;> exact ⟨nofun, nofun⟩
  exact ⟨_, exec_of_outOfRange hend hxrsv hnone, rfl, rfl, hout⟩

end Sys2Proof.Machine
end
